-- ==== Sys2Proof/Word.lean ====
section
/-! DEFINITION. The two value types every other file uses: the 8-bit unsigned byte (00_scope.md R6, R7) and the
register number (10_state.md R11). -/

namespace Sys2Proof

/-- Every register, memory cell, immediate and operand is one unsigned 8-bit value (R7). -/
abbrev Byte := BitVec 8

/-- A register number, 0 to 7 (R11). -/
abbrev Reg := Fin 8

end Sys2Proof
end

