-- ==== Sys2Proof/Machine/AluFunctions.lean ====
section
/-! DEFINITION. What the ALU computes (42_alu.md R83): the true result on the unsigned values, narrowed to 8 bits. -/

namespace Sys2Proof.Machine

/-- `(va + vb) mod 256` (R89). -/
def aluAdd (va vb : Byte) : Byte := BitVec.ofNat 8 (va.toNat + vb.toNat)

/-- `(va - vb) mod 256`, the difference taken as an integer (R90). -/
def aluSub (va vb : Byte) : Byte := BitVec.ofInt 8 ((va.toNat : Int) - (vb.toNat : Int))

/-- `(va * vb) mod 256` (R91). -/
def aluMul (va vb : Byte) : Byte := BitVec.ofNat 8 (va.toNat * vb.toNat)

/-- Bit i of the result is bit i of `va` and bit i of `vb` (R92). -/
def aluAnd (va vb : Byte) : Byte := va &&& vb

/-- Bit i of the result is bit i of `va` or bit i of `vb` (R93). -/
def aluOr (va vb : Byte) : Byte := va ||| vb

/-- Bit i of the result is bit i of `va` exclusive-or bit i of `vb` (R94). -/
def aluXor (va vb : Byte) : Byte := va ^^^ vb

/-- `(va * 2^vb) mod 256`: the amount is the whole value of `vb`, not masked (R95). -/
def aluShl (va vb : Byte) : Byte := BitVec.ofNat 8 (va.toNat * 2 ^ vb.toNat)

/-- `va div 2^vb`: logical, the amount not masked (R96). -/
def aluShr (va vb : Byte) : Byte := BitVec.ofNat 8 (va.toNat / 2 ^ vb.toNat)

/-- `va % vb` for a divisor that is not zero (R97). -/
def aluMod (va vb : Byte) : Byte := BitVec.ofNat 8 (va.toNat % vb.toNat)

/-- `255 - va` (R98). -/
def aluNot (va : Byte) : Byte := BitVec.ofNat 8 (255 - va.toNat)

end Sys2Proof.Machine
end

