-- ==== Sys2Proof/Config.lean ====
section
/-! DEFINITION. What the spec fixes as parameters of the hardware (00_scope.md R6), the one parameter it leaves OPEN,
and the closed set of mnemonics (R3). The opcode byte of each mnemonic, OPCODE_MAP, is in Decode.lean. -/

namespace Sys2Proof

/-- `MEM_SIZE`: 256 cells, addresses 0 to 255 (R6, R34). -/
abbrev Config.memSize : Nat := 256

/-- `SP_REG`: the stack pointer is the content of register 7 (R6, R18; 90_conflicts.md C1). -/
abbrev Config.spReg : Reg := 7

/-- `SP_RESET`: the stack pointer at the start of a run (R6, R15). -/
abbrev Config.spReset : Byte := 0xF4#8

/-- `LOAD_BASE`: the address of the first program byte and the start value of the pc (R6, R25, R38). -/
abbrev Config.loadBase : Nat := 0

/-- `MOD_ZERO_ADVANCES_PC`, the one parameter the spec leaves OPEN (R6, R97; 92_eei_decisions.md D11): whether a MOD
with a zero divisor moves the pc past itself. It has no value here, so nothing proved can rest on one (DESIGN CHOICE of that form, safe, log 13). -/
opaque Config.modZeroAdvancesPc : Bool

/-- The 22 instructions of the closed set, by name, in the spec's order (R3). -/
inductive Mnemonic where
  | hlt | ldi | prn | nop
  | add | sub | mul | and | or | xor | shl | shr | mod | not | cmp
  | jmp | jeq | jne
  | push | pop | call | ret
deriving DecidableEq, Repr

/-- The closed set as a list, in the spec's order (R3). -/
def Config.mnemonics : List Mnemonic :=
  [.hlt, .ldi, .prn, .nop, .add, .sub, .mul, .and, .or, .xor, .shl, .shr, .mod, .not, .cmp,
   .jmp, .jeq, .jne, .push, .pop, .call, .ret]

end Sys2Proof
end

