-- ==== Sys2Proof/Machine/State.lean ====
section
/-! DEFINITION. The state of the machine: the record of 10_state.md R10, the error kinds of 60_exceptions.md R112, the
events of R30 and R113, and the state right after reset (70_reset_and_hazards.md R128). -/

namespace Sys2Proof.Machine

/-- A register's cell (`Cell` of R10): the spec's own two-valued state, `Unwritten` until the register is first
written (R16, R17). -/
inductive RegCell where
  | unwritten
  | val (b : Byte)
deriving DecidableEq, Repr

/-- Memory: the cells that hold a value, as (address, byte) pairs in rising address order. An address that is not
listed is `Unwritten` (R34, R38). -/
abbrev Memory := List Host.Cell

/-- The flag register (R20): `Unset` before the first CMP, then the three booleans Equal, Less, Greater. -/
inductive Flags where
  | unset
  | set (e l g : Bool)
deriving DecidableEq, Repr

/-- The fatal errors, a closed set (R112). Raising one is a step to a state that records it (R114), not a stop of the
model. `UnsupportedOperation` cannot be raised by any program and has no constructor (R88). -/
inductive FatalError where
  /-- A fetch or an operand read at an address of 256 or more (R35, R68, R70). -/
  | outOfRange (addr : Nat)
  /-- A fetched byte that is none of the 22 opcodes (R62, R69). -/
  | invalidOpcode (op : Byte)
  /-- A register operand byte above 7 (R57, R71). -/
  | invalidRegister (byte : Byte)
  /-- A read of a register that holds no value (R17). -/
  | uninitialisedRegister (i : Reg)
  /-- A read of a memory cell that holds no value (R37). -/
  | uninitialisedMemory (addr : Nat)
  /-- A read of the Equal flag before any CMP (R22). -/
  | flagsUndefined
  /-- The return address of a CALL does not fit in a byte (R108). -/
  | returnAddressOutOfRange (ret : Nat)
deriving DecidableEq, Repr

/-- The record a fatal error leaves: the error with its information, and the address of the faulting instruction's
opcode (R112, R114). -/
structure FaultRecord where
  error : FatalError
  pc : Nat
deriving DecidableEq, Repr

/-- A diagnostic (R113): of a fatal error, or of the graceful halt of MOD by zero with its pc and operands. -/
inductive Diag where
  | fatal (r : FaultRecord)
  | divideByZero (pc : Nat) (a b : Reg)
deriving DecidableEq, Repr

/-- An event at the output port or the diagnostic port (R30, R33). -/
inductive Event where
  | out (v : Byte)
  | diag (d : Diag)
deriving DecidableEq, Repr

/-- The whole state (R10). `regs` holds R0 to R7, and R7 is the stack pointer (R18). -/
structure State where
  regs : Vector RegCell 8
  mem : Memory
  pc : Nat
  flags : Flags
  running : Bool
  fault : Option FaultRecord
  events : List Event
deriving DecidableEq, Repr

/-- The states from which no step is enabled (R66), named. `step` raises both, before fetching anything; no
instruction's meaning ends in one. -/
inductive Fault where
  /-- `step` at a state with `running = false`: the run has ended halted (R66, R77). Safe: the hardware executes
  nothing further either. -/
  | halted
  /-- `step` at a state that records a fatal error: the run has aborted (R66, R77, R114). Safe: the hardware executes
  nothing further either. -/
  | aborted (r : FaultRecord)
deriving DecidableEq, Repr

/-- The reasons to refuse an instruction. No meaning and no step of this model refuses: every instruction of the table
has its meaning. -/
inductive Refusal where
  /-- Raised by `exec` for an instruction that has no meaning yet (none here). Safe: the model stops. -/
  | notModelled (mnemonic : String)
deriving DecidableEq, Repr

/-- The start state (R128) with no program loaded (n = 0): R0 to R6 and all of memory `Unwritten`, R7 = 0xF4, pc 0,
flags `Unset`, running, no fault, no events. The values are the spec's (log 1, 2, 5, 8, 19); that there is no program is a
DESIGN CHOICE (safe, log 23). -/
def State.reset : State where
  regs := #v[.unwritten, .unwritten, .unwritten, .unwritten, .unwritten, .unwritten, .unwritten, .val Config.spReset]
  mem := []
  pc := Config.loadBase
  flags := .unset
  running := true
  fault := none
  events := []

end Sys2Proof.Machine
end

