-- ==== Sys2Proof/Machine/Ops.lean ====
section
/-! DEFINITION. The named operations over the state: the pseudocode primitives of 00_scope.md R8, memory in its one
canonical form, and taking a fatal error (60_exceptions.md R114). There is no return from an error (R119). -/

namespace Sys2Proof.Machine

/-- A part of an instruction: a value, or the fatal error it raises. -/
abbrev Result := Except FatalError

/-- The outcome of a meaning and of a step. -/
abbrev Out := Host.Outcome State Fault Refusal

/-- What an address that is not listed reads as: no value, the cell is `Unwritten` (R34, R37, R38; UNVERIFIED, log 2). -/
def Memory.unlisted : Option Byte := none

/-- The byte of one cell, none when it is `Unwritten`. -/
def Memory.read : Memory → Nat → Option Byte
  | [], _ => Memory.unlisted
  | (addr, b) :: m, a => if addr = a then some b else Memory.read m a

/-- The memory with one cell given a value, in rising address order. -/
def Memory.write : Memory → Nat → Byte → Memory
  | [], a, v => [(a, v)]
  | (addr, b) :: m, a, v =>
      if a < addr then (a, v) :: (addr, b) :: m
      else if a = addr then (a, v) :: m
      else (addr, b) :: Memory.write m a v

/-- The canonical form: addresses strictly rising and inside the 256 cells. An unlisted address has no value, so no
entry can equal what an unlisted address reads as (DESIGN CHOICE, safe, log 24). -/
abbrev Memory.wf (m : Memory) : Prop :=
  m.Pairwise (fun c d => c.1 < d.1) ∧ ∀ c ∈ m, c.1 < Config.memSize

/-- The cell of register `r`. -/
def State.reg (s : State) (r : Reg) : RegCell := s.regs[r]

/-- `x[r]`: reading a register that holds no value is an error (R17). -/
def State.readReg (s : State) (r : Reg) : Result Byte :=
  match s.reg r with
  | .val b => .ok b
  | .unwritten => .error (.uninitialisedRegister r)

/-- `x[r] <- v` (R17). -/
def State.writeReg (s : State) (r : Reg) (v : Byte) : State := { s with regs := s.regs.set r (.val v) }

/-- `MemRead(addr, 1)` (R35): the range check, then the `Unwritten` check. -/
def State.memRead (s : State) (addr : Nat) : Result Byte :=
  if addr > 255 then .error (.outOfRange addr)
  else match s.mem.read addr with
    | some b => .ok b
    | none => .error (.uninitialisedMemory addr)

/-- One cell given a value: `mem[addr] <- Val(v)` (R36). -/
def State.writeMem (s : State) (addr : Nat) (v : Byte) : State := { s with mem := s.mem.write addr v }

/-- `MemWrite(addr, 1, v)` (R36). -/
def State.memWrite (s : State) (addr : Nat) (v : Byte) : Result State :=
  if addr > 255 then .error (.outOfRange addr)
  else .ok (s.writeMem addr v)

/-- `pc <- pc + width` (R73). -/
def State.advance (s : State) (width : Nat) : State := { s with pc := s.pc + width }

/-- `pc <- target` (R73). -/
def State.jump (s : State) (target : Byte) : State := { s with pc := target.toNat }

/-- `halt`: `running <- false` (R24). -/
def State.halt (s : State) : State := { s with running := false }

/-- `FLAGS <- f`, the three flags as a set (R21). -/
def State.writeFlags (s : State) (f : Flags) : State := { s with flags := f }

/-- Appends one event (R30). -/
def State.emit (s : State) (e : Event) : State := { s with events := s.events ++ [e] }

/-- `raise F(info)` (R114), from the state the instruction started from: the fault is recorded with the address of the
instruction's opcode and its diagnostic appended; everything else keeps its value, `running` included. That it is a next state is a DESIGN CHOICE
(safe, log 3). -/
def State.raise (s : State) (e : FatalError) : State :=
  { s with fault := some ⟨e, s.pc⟩, events := s.events ++ [.diag (.fatal ⟨e, s.pc⟩)] }

/-- The end of an instruction that started in `s` (R74): all of its writes, or, if any part raised an error, none of
them and the error taken. -/
def complete (s : State) : Result State → Out
  | .ok t => .next t
  | .error e => .next (s.raise e)

/-- Cell `addr` given a value from outside a run, as the loader does (R129); there is no cell above 255. -/
def State.poke (s : State) (addr : Nat) (v : Byte) : State :=
  if addr > 255 then s else s.writeMem addr v

end Sys2Proof.Machine
end

