-- ==== Sys2Proof/Machine/Flags.lean ====
section
/-! DEFINITION. The flag computation of CMP (42_alu.md R99) and the one flag read there is (10_state.md R22). -/

namespace Sys2Proof.Machine

/-- `(E := va = vb, L := va < vb, G := va > vb)` on the unsigned values (R21, R87, R99). -/
def compareFlags (va vb : Byte) : Flags :=
  .set (decide (va.toNat = vb.toNat)) (decide (va.toNat < vb.toNat)) (decide (va.toNat > vb.toNat))

/-- `FLAGS.E`: an error while the flags are `Unset` (R22). -/
def State.readEqual (s : State) : Result Bool :=
  match s.flags with
  | .set e _ _ => .ok e
  | .unset => .error .flagsUndefined

end Sys2Proof.Machine
end

