-- ==== Sys2Proof/Machine/Operands.lean ====
section
/-! DEFINITION. The operand forms: the one and the two register operands of the ALU (42_alu.md R84) and the stack
addressed through R7 (44_stack.md R105). An immediate is used as it stands (30_encoding.md R58). -/

namespace Sys2Proof.Machine

/-- `va <- x[a]; x[a] <- f(va)` of a one-register ALU instruction (R98). -/
def updateReg (f : Byte → Byte) (a : Reg) (s : State) : Result State := do
  let va ← s.readReg a
  .ok (s.writeReg a (f va))

/-- `va <- x[a]; vb <- x[b]`: both registers are read, `a` first (R84). -/
def readPair (a b : Reg) (s : State) : Result (Byte × Byte) := do
  let va ← s.readReg a
  let vb ← s.readReg b
  .ok (va, vb)

/-- `va <- x[a]; vb <- x[b]; x[a] <- f(va, vb)`: Rb is never written (R84). -/
def combineRegs (f : Byte → Byte → Byte) (a b : Reg) (s : State) : Result State := do
  let (va, vb) ← readPair a b s
  .ok (s.writeReg a (f va vb))

/-- `SP <- (SP - 1) mod 256` (R19). -/
def decSp (s : State) : Result State := do
  let sp ← s.readReg Config.spReg
  .ok (s.writeReg Config.spReg (BitVec.ofInt 8 ((sp.toNat : Int) - 1)))

/-- `SP <- (SP + 1) mod 256` (R19). -/
def incSp (s : State) : Result State := do
  let sp ← s.readReg Config.spReg
  .ok (s.writeReg Config.spReg (BitVec.ofNat 8 (sp.toNat + 1)))

/-- `MemRead(SP, 1)` (R107, R109). -/
def loadAtSp (s : State) : Result Byte := do
  let sp ← s.readReg Config.spReg
  s.memRead sp.toNat

/-- `MemWrite(SP, 1, v)` (R106, R108). -/
def storeAtSp (v : Byte) (s : State) : Result State := do
  let sp ← s.readReg Config.spReg
  s.memWrite sp.toNat v

end Sys2Proof.Machine
end

