-- ==== Sys2Proof/Machine/Alu.lean ====
section
/-! DEFINITION. The meanings of the eleven ALU instructions (42_alu.md): arithmetic, bitwise, shifts, modulo, complement
and compare. -/

namespace Sys2Proof.Machine

/-- The common form of `OP Ra,Rb` (R84): read both, write Ra, advance by 3; the flags are not written (R85). -/
def execBinary (f : Byte → Byte → Byte) (a b : Reg) (s : State) : Out := complete s (do
  let t ← combineRegs f a b s
  .ok (t.advance 3))

/-- ADD Ra,Rb (R89). -/
def execAdd (a b : Reg) (s : State) : Out := execBinary aluAdd a b s

/-- SUB Ra,Rb (R90). -/
def execSub (a b : Reg) (s : State) : Out := execBinary aluSub a b s

/-- MUL Ra,Rb (R91). -/
def execMul (a b : Reg) (s : State) : Out := execBinary aluMul a b s

/-- AND Ra,Rb (R92). -/
def execAnd (a b : Reg) (s : State) : Out := execBinary aluAnd a b s

/-- OR Ra,Rb (R93). -/
def execOr (a b : Reg) (s : State) : Out := execBinary aluOr a b s

/-- XOR Ra,Rb (R94). -/
def execXor (a b : Reg) (s : State) : Out := execBinary aluXor a b s

/-- SHL Ra,Rb (R95). -/
def execShl (a b : Reg) (s : State) : Out := execBinary aluShl a b s

/-- SHR Ra,Rb (R96). -/
def execShr (a b : Reg) (s : State) : Out := execBinary aluShr a b s

/-- The graceful halt of a MOD by zero (R97, R115): the diagnostic, `running <- false`, and the pc as the OPEN parameter
says. No register and no flag changes, and no fault is recorded. -/
def State.divideByZeroHalt (s : State) (a b : Reg) : State :=
  let t := (s.emit (.diag (.divideByZero s.pc a b))).halt
  if Config.modZeroAdvancesPc then t.advance 3 else t

/-- MOD Ra,Rb (R97): both registers are read before the divisor is tested. -/
def execMod (a b : Reg) (s : State) : Out := complete s (do
  let (va, vb) ← readPair a b s
  if vb = 0#8 then .ok (s.divideByZeroHalt a b)
  else .ok ((s.writeReg a (aluMod va vb)).advance 3))

/-- NOT Ra (R98): one operand byte, width 2. -/
def execNot (a : Reg) (s : State) : Out := complete s (do
  let t ← updateReg aluNot a s
  .ok (t.advance 2))

/-- CMP Ra,Rb (R99): the only instruction that writes the flags. -/
def execCmp (a b : Reg) (s : State) : Out := complete s (do
  let (va, vb) ← readPair a b s
  .ok ((s.writeFlags (compareFlags va vb)).advance 3))

end Sys2Proof.Machine
end

