-- ==== Sys2Proof/Machine/Branch.lean ====
section
/-! DEFINITION. The meanings of JMP, JEQ and JNE (43_branch.md): absolute targets from a register, no delay slot (R104). -/

namespace Sys2Proof.Machine

/-- `pc <- x[a]` when the branch is taken, else `pc <- pc + 2`: the register is read only when taken (R12, R102, R103). -/
def branchIf (taken : Bool) (a : Reg) (s : State) : Result State :=
  if taken then do
    let t ← s.readReg a
    .ok (s.jump t)
  else .ok (s.advance 2)

/-- JMP Ra (R101). -/
def execJmp (a : Reg) (s : State) : Out := complete s (branchIf true a s)

/-- JEQ Ra (R102): the Equal flag is read first. -/
def execJeq (a : Reg) (s : State) : Out := complete s (do
  let e ← s.readEqual
  branchIf e a s)

/-- JNE Ra (R103): the Equal flag, inverted. -/
def execJne (a : Reg) (s : State) : Out := complete s (do
  let e ← s.readEqual
  branchIf (!e) a s)

end Sys2Proof.Machine
end

