-- ==== Sys2Proof/Machine/ControlIo.lean ====
section
/-! DEFINITION. The meanings of HLT, LDI, PRN and NOP (41_control_io.md). -/

namespace Sys2Proof.Machine

/-- HLT (R79): the pc advances by 1 like any width-1 instruction. -/
def execHlt (s : State) : Out := complete s (.ok (s.halt.advance 1))

/-- LDI Ra,imm (R80). -/
def execLdi (a : Reg) (imm : Byte) (s : State) : Out := complete s (.ok ((s.writeReg a imm).advance 3))

/-- PRN Ra (R81). -/
def execPrn (a : Reg) (s : State) : Out := complete s (do
  let v ← s.readReg a
  .ok ((s.emit (.out v)).advance 2))

/-- NOP (R82). -/
def execNop (s : State) : Out := complete s (.ok (s.advance 1))

end Sys2Proof.Machine
end

