-- ==== Sys2Proof/Machine/Stack.lean ====
section
/-! DEFINITION. The meanings of PUSH, POP, CALL and RET (44_stack.md). The steps run in the order the rules write them,
and a later step sees an earlier one's write to SP (R8, R133). -/

namespace Sys2Proof.Machine

/-- PUSH Ra (R106): Ra is read after the SP update, so PUSH R7 stores the decremented SP. -/
def execPush (a : Reg) (s : State) : Out := complete s (do
  let s1 ← decSp s
  let v ← s1.readReg a
  let s2 ← storeAtSp v s1
  .ok (s2.advance 2))

/-- POP Ra (R107): Ra is written before the SP update, so POP R7 leaves the popped value plus one. -/
def execPop (a : Reg) (s : State) : Out := complete s (do
  let v ← loadAtSp s
  let s1 ← incSp (s.writeReg a v)
  .ok (s1.advance 2))

/-- CALL Ra (R108): the return address is checked first, and Ra is read after the SP update and the store. -/
def execCall (a : Reg) (s : State) : Out := complete s (do
  let ret := s.pc + 2
  if ret > 255 then .error (.returnAddressOutOfRange ret)
  else do
    let s1 ← decSp s
    let s2 ← storeAtSp (BitVec.ofNat 8 ret) s1
    let t ← s2.readReg a
    .ok (s2.jump t))

/-- RET (R109). -/
def execRet (s : State) : Out := complete s (do
  let t ← loadAtSp s
  let s1 ← incSp s
  .ok (s1.jump t))

end Sys2Proof.Machine
end

