-- ==== Sys2Proof/Syntax.lean ====
section
/-! DEFINITION. The instructions: one constructor per row of spec/opcode_table.json, in the table's order
(00_scope.md R3), with the operands of their format (30_encoding.md R51, R56, R58). -/

namespace Sys2Proof

/-- An instruction. A register operand is a register number 0 to 7: a byte above 7 never becomes an instruction, since
R57 checks it at decode. The only other operand is the immediate of LDI. -/
inductive Instr where
  | hlt
  | ldi (a : Reg) (imm : Byte)
  | prn (a : Reg)
  | nop
  | add (a b : Reg)
  | sub (a b : Reg)
  | mul (a b : Reg)
  | and (a b : Reg)
  | or (a b : Reg)
  | xor (a b : Reg)
  | shl (a b : Reg)
  | shr (a b : Reg)
  | mod (a b : Reg)
  | not (a : Reg)
  | cmp (a b : Reg)
  | jmp (a : Reg)
  | jeq (a : Reg)
  | jne (a : Reg)
  | push (a : Reg)
  | pop (a : Reg)
  | call (a : Reg)
  | ret
deriving DecidableEq, Repr

/-- The mnemonic of an instruction (R3). -/
def Instr.mnemonic : Instr → Mnemonic
  | .hlt => .hlt
  | .ldi _ _ => .ldi
  | .prn _ => .prn
  | .nop => .nop
  | .add _ _ => .add
  | .sub _ _ => .sub
  | .mul _ _ => .mul
  | .and _ _ => .and
  | .or _ _ => .or
  | .xor _ _ => .xor
  | .shl _ _ => .shl
  | .shr _ _ => .shr
  | .mod _ _ => .mod
  | .not _ => .not
  | .cmp _ _ => .cmp
  | .jmp _ => .jmp
  | .jeq _ => .jeq
  | .jne _ => .jne
  | .push _ => .push
  | .pop _ => .pop
  | .call _ => .call
  | .ret => .ret

end Sys2Proof
end

