-- ==== Sys2Proof/WellFormed.lean ====
section
/-! DEFINITION. Well-formed operand bytes (30_encoding.md R51, R57): the operand bytes of an instruction in each of the
four formats, and the check that every register field names one of the eight registers. -/

namespace Sys2Proof

/-- The operand bytes that follow an opcode, by format (R51). -/
inductive OperandBytes where
  | n
  | r (a : Byte)
  | rr (a b : Byte)
  | ri (a imm : Byte)
deriving DecidableEq, Repr

/-- The operand bytes in memory order (R51, R65). -/
def OperandBytes.bytes : OperandBytes → List Byte
  | .n => []
  | .r a => [a]
  | .rr a b => [a, b]
  | .ri a imm => [a, imm]

/-- The register fields, `a` first (R71). The immediate of LDI is not one. -/
def OperandBytes.regFields : OperandBytes → List Byte
  | .n => []
  | .r a => [a]
  | .rr a b => [a, b]
  | .ri a _ => [a]

/-- Every register field is in 0..7 (R57, R71). -/
def OperandBytes.wellFormed (o : OperandBytes) : Bool :=
  o.regFields.all (fun b => b.toNat < 8)

end Sys2Proof
end

