-- ==== Sys2Proof/Decode.lean ====
section
/-! DEFINITION. Decoding (30_encoding.md R52 to R62, 40_dispatch.md R67 to R71) and, after it, the encoder (R65).
One decoder serves both the machine's fetch and a list of bytes: it asks a reader for the byte at an address, so the
order of the reads is R67's. -/

namespace Sys2Proof

/-- `OPCODE_MAP` (R52): the opcode byte of each instruction. The spec takes these values from the LS-8 assignment, not
from its source (92_eei_decisions.md D1; PRESUMED, unsafe, log 6). -/
def opcodeMap : Mnemonic → Byte
  | .hlt => 0x01#8
  | .ldi => 0x82#8
  | .prn => 0x47#8
  | .nop => 0x00#8
  | .add => 0xA0#8
  | .sub => 0xA1#8
  | .mul => 0xA2#8
  | .and => 0xA8#8
  | .or => 0xAA#8
  | .xor => 0xAB#8
  | .shl => 0xAC#8
  | .shr => 0xAD#8
  | .mod => 0xA4#8
  | .not => 0x69#8
  | .cmp => 0xA7#8
  | .jmp => 0x54#8
  | .jeq => 0x55#8
  | .jne => 0x56#8
  | .push => 0x45#8
  | .pop => 0x46#8
  | .call => 0x50#8
  | .ret => 0x11#8

/-- A row of the instruction table: the format (R51) with the instruction it builds from its operands. -/
inductive Row where
  | n (i : Instr)
  | r (mk : Reg → Instr)
  | rr (mk : Reg → Reg → Instr)
  | ri (mk : Reg → Byte → Instr)

/-- The row of each mnemonic (R51). NOT has one operand byte (R60; 90_conflicts.md C3). -/
def rowOf : Mnemonic → Row
  | .hlt => .n .hlt
  | .ldi => .ri .ldi
  | .prn => .r .prn
  | .nop => .n .nop
  | .add => .rr .add
  | .sub => .rr .sub
  | .mul => .rr .mul
  | .and => .rr .and
  | .or => .rr .or
  | .xor => .rr .xor
  | .shl => .rr .shl
  | .shr => .rr .shr
  | .mod => .rr .mod
  | .not => .r .not
  | .cmp => .rr .cmp
  | .jmp => .r .jmp
  | .jeq => .r .jeq
  | .jne => .r .jne
  | .push => .r .push
  | .pop => .r .pop
  | .call => .r .call
  | .ret => .n .ret

/-- The width in bytes of a row: the opcode and its operand bytes (R51). -/
def Row.width : Row → Nat
  | .n _ => 1
  | .r _ => 2
  | .rr _ => 3
  | .ri _ => 3

/-- The width of an instruction, fixed by its opcode alone (R55). -/
def widthOf (m : Mnemonic) : Nat := (rowOf m).width

/-- Why bytes are no instruction: an opcode outside the closed set (R62), or a register field above 7 (R57). -/
inductive Illegal where
  | opcode (op : Byte)
  | register (byte : Byte)
deriving DecidableEq, Repr

/-- `decode` of R54: the mnemonic whose opcode equals the whole byte, else none (Invalid), under the table `map`. -/
def decodeOpWith (map : Mnemonic → Byte) (op : Byte) : Option Mnemonic :=
  Config.mnemonics.find? (fun m => map m == op)

/-- R54 under `OPCODE_MAP`. -/
def decodeOp (op : Byte) : Option Mnemonic := decodeOpWith opcodeMap op

/-- A register field: the whole byte read as the register number (R56); above 7 it is illegal (R57). -/
def regField (b : Byte) : Except Illegal Reg :=
  if h : b.toNat < 8 then .ok ⟨b.toNat, h⟩ else .error (.register b)

/-- The operand reads of R70 and then the register checks of R71 for one row, the opcode standing at `addr`. -/
def readOperands {ε : Type} (rd : Nat → Except ε Byte) (bad : Illegal → ε) (addr : Nat) : Row → Except ε Instr
  | .n i => .ok i
  | .r mk => do
      let a ← rd (addr + 1)
      let ra ← (regField a).mapError bad
      .ok (mk ra)
  | .rr mk => do
      let a ← rd (addr + 1)
      let b ← rd (addr + 2)
      let ra ← (regField a).mapError bad
      let rb ← (regField b).mapError bad
      .ok (mk ra rb)
  | .ri mk => do
      let a ← rd (addr + 1)
      let imm ← rd (addr + 2)
      let ra ← (regField a).mapError bad
      .ok (mk ra imm)

/-- The fetch-and-decode part of R67: the opcode, then its operand bytes, then the register checks. -/
def readInstr {ε : Type} (map : Mnemonic → Byte) (rd : Nat → Except ε Byte) (bad : Illegal → ε) (addr : Nat) :
    Except ε Instr := do
  let op ← rd addr
  match decodeOpWith map op with
  | none => .error (bad (.opcode op))
  | some m => readOperands rd bad addr (rowOf m)

/-- Why a list of bytes decodes to nothing: illegal bytes, or an end before byte `k`. -/
inductive DecodeError where
  | illegal (e : Illegal)
  | truncated (k : Nat)
deriving DecidableEq, Repr

/-- Byte `k` of a list. -/
def byteAt (bs : List Byte) (k : Nat) : Except DecodeError Byte :=
  match bs[k]? with
  | some b => .ok b
  | none => .error (.truncated k)

/-- The decoder on a list of bytes under the table `map`: the first instruction and the bytes after it. -/
def decodeWith (map : Mnemonic → Byte) (bs : List Byte) : Except DecodeError (Instr × List Byte) := do
  let i ← readInstr map (byteAt bs) .illegal 0
  .ok (i, bs.drop (widthOf i.mnemonic))

/-- The decoder on a list of bytes under `OPCODE_MAP`. -/
def decode (bs : List Byte) : Except DecodeError (Instr × List Byte) := decodeWith opcodeMap bs

/-- The byte a register operand is written as: its number widened with zeros (R65). -/
def regByte (r : Reg) : Byte := BitVec.ofNat 8 r.val

/-- The operand bytes an instruction is written with (R65). -/
def Instr.operandBytes : Instr → OperandBytes
  | .hlt | .nop | .ret => .n
  | .prn a | .not a | .jmp a | .jeq a | .jne a | .push a | .pop a | .call a => .r (regByte a)
  | .add a b | .sub a b | .mul a b | .and a b | .or a b | .xor a b | .shl a b | .shr a b | .mod a b | .cmp a b =>
      .rr (regByte a) (regByte b)
  | .ldi a imm => .ri (regByte a) imm

/-- An instruction is well formed when the operand bytes it is written with are (R57). -/
def Instr.wellFormed (i : Instr) : Bool := i.operandBytes.wellFormed

/-- The encoder under the table `map` (R65): the opcode, then the operand bytes. -/
def encodeWith (map : Mnemonic → Byte) (i : Instr) : List Byte := map i.mnemonic :: i.operandBytes.bytes

/-- The bytes of an instruction under `OPCODE_MAP` (R65). -/
def encode (i : Instr) : List Byte := encodeWith opcodeMap i

/-- The three bytes of an instruction given as a number with bit 0 the least significant bit of its first byte; bits
from `nbits` up are zero. -/
def wordBytes (nbits w : Nat) : List Byte :=
  let v := w % 2 ^ nbits
  [BitVec.ofNat 8 v, BitVec.ofNat 8 (v / 256), BitVec.ofNat 8 (v / 65536)]

/-- The instruction the decoder reads from bits numbered as spec/opcode_table.json numbers them. -/
def decodeTableWord (nbits w : Nat) : Option Instr :=
  match decode (wordBytes nbits w) with
  | .ok (i, _) => some i
  | .error _ => none

end Sys2Proof
end

