-- ==== Sys2Proof/Machine/Fetch.lean ====
section
/-! DEFINITION. Fetching and decoding the instruction at the pc (40_dispatch.md R67 to R71), through the same memory
read as every other access (20_memory.md R49). -/

namespace Sys2Proof.Machine

/-- The fatal error of bytes that are no instruction (R57, R69). -/
def illegalError : Illegal → FatalError
  | .opcode op => .invalidOpcode op
  | .register byte => .invalidRegister byte

/-- The instruction at the pc, or the error its fetch, its operand reads or its register checks raise, in that order. -/
def fetch (s : State) : Result Instr := readInstr opcodeMap s.memRead illegalError s.pc

end Sys2Proof.Machine
end

