-- ==== Sys2Proof/Machine/Step.lean ====
section
/-! DEFINITION. One step of the machine (40_dispatch.md R66, R67), and the host's way to place an instruction where the
next step fetches it. -/

namespace Sys2Proof.Machine

/-- `step()`: no step is enabled in a faulted or a halted state (R66); otherwise fetch and decode, and execute, or take
the error that fetching and decoding raised (R67, R114). Each meaning moves the pc itself (R73). The two stops are
DEDUCED from R66 (safe, log 4), and that the test of R66 stands here is a DESIGN CHOICE (safe, log 26). -/
def step (s : State) : Host.Outcome State Fault Refusal :=
  match s.fault with
  | some r => .fault (.aborted r)
  | none =>
    if s.running then
      match fetch s with
      | .ok i => exec i s
      | .error e => .next (s.raise e)
    else .fault .halted

/-- `s` with the bytes of one instruction in the cells the next step reads: at the pc and the two addresses after it, as
far as there are cells. Nothing else changes (DESIGN CHOICE, safe, log 23). -/
def State.withFetchWord (s : State) (nbits w : Nat) : State :=
  match wordBytes nbits w with
  | [b0, b1, b2] => ((s.poke s.pc b0).poke (s.pc + 1) b1).poke (s.pc + 2) b2
  | _ => s

end Sys2Proof.Machine
end

