-- ==== Sys2Proof/Machine/Output.lean ====
section
/-! DEFINITION. What the host prints of the events (40_dispatch.md R76, 41_control_io.md R81): each `Out(v)` is one line
with the unsigned decimal value of v. The text of a diagnostic is not given and not modelled (60_exceptions.md R113). -/

namespace Sys2Proof.Machine

/-- The character of a decimal digit. -/
def decimalDigit (n : Nat) : Char := Char.ofNat ('0'.toNat + n % 10)

/-- An 8-bit value in decimal, 0 to 255, without leading zeros (DESIGN CHOICE, log 29: unsafe for claims about the
characters). -/
def decimal (v : Byte) : List Char :=
  let n := v.toNat
  if n < 10 then [decimalDigit n]
  else if n < 100 then [decimalDigit (n / 10), decimalDigit n]
  else [decimalDigit (n / 100), decimalDigit (n / 10), decimalDigit n]

/-- The line the host prints for an event, if it is an output event. -/
def eventLine : Event → Option (List Char)
  | .out v => some (decimal v)
  | .diag _ => none

/-- The lines the host has printed, in execution order (R76). -/
def outputLines (s : State) : List (List Char) := s.events.filterMap eventLine

end Sys2Proof.Machine
end

