-- ==== Sys2Proof/Machine/Load.lean ====
section
/-! DEFINITION. What the loader leaves (70_reset_and_hazards.md R128 to R130): the bytes of a program file, placed from
address 0 before the first step. A load error means that no run starts. -/

namespace Sys2Proof.Machine

/-- Why a program does not load (R130): a line that is not a binary literal, or a byte with no cell to go to. -/
inductive LoadError where
  | malformed (line : List Char)
  | memory (e : FatalError)
deriving DecidableEq, Repr

/-- White space around a literal (DESIGN CHOICE, log 22: the spec does not say what may surround a literal; safe, since
it decides only which files load). -/
def isSpace (c : Char) : Bool := c == ' ' || c == '\t' || c == '\r'

/-- A line without its trailing comment, which begins with `#`, and without surrounding white space (R129). -/
def lineText (line : List Char) : List Char :=
  (((line.takeWhile (fun c => c != '#')).dropWhile isSpace).reverse.dropWhile isSpace).reverse

/-- One binary digit. -/
def binaryDigit (c : Char) : Option Nat :=
  if c == '0' then some 0 else if c == '1' then some 1 else none

/-- The number that binary digits write, most significant bit first, after a part of value `acc` (R129). -/
def binaryValue (acc : Nat) : List Char → Option Nat
  | [] => some acc
  | c :: cs =>
    match binaryDigit c with
    | some d => binaryValue (2 * acc + d) cs
    | none => none

/-- An 8-character binary literal (R129). -/
def binaryLiteral (cs : List Char) : Option Byte :=
  if cs.length = 8 then (binaryValue 0 cs).map (BitVec.ofNat 8) else none

/-- The bytes of a program file, one per line that holds a literal; blank and comment-only lines are skipped, and any
other line is malformed (R129, R130). -/
def parseFile : List (List Char) → Except LoadError (List Byte)
  | [] => .ok []
  | line :: lines =>
    match lineText line with
    | [] => parseFile lines
    | cs =>
      match binaryLiteral cs with
      | none => .error (.malformed line)
      | some b => do
          let bs ← parseFile lines
          .ok (b :: bs)

/-- The bytes written one after the other from `addr`, through the memory's write operation (R129). -/
def placeBytes (s : State) (addr : Nat) : List Byte → Result State
  | [] => .ok s
  | b :: bs => do
      let t ← s.memWrite addr b
      placeBytes t (addr + 1) bs

/-- The start state of a run with the program `p` loaded (R128, R130). -/
def load (p : List Byte) : Except LoadError State :=
  (placeBytes State.reset Config.loadBase p).mapError .memory

/-- The start state of a run of a program file (R128 to R130). -/
def loadFile (lines : List (List Char)) : Except LoadError State := do
  let p ← parseFile lines
  load p

end Sys2Proof.Machine
end

