-- ==== Sys2Proof/Machine/Run.lean ====
section
/-! DEFINITION. The run loop (40_dispatch.md R75): `step` repeated while it is enabled. The machine has no fuel; the
number given here bounds only how far the loop is followed. -/

namespace Sys2Proof.Machine

/-- At most `n` steps from `s`, stopping where no step is enabled. -/
def runFor : Nat → State → State
  | 0, s => s
  | n + 1, s =>
    match step s with
    | .next t => runFor n t
    | _ => s

end Sys2Proof.Machine
end

