-- ==== Sys2Proof/Safety.lean ====
section
/-! DEFINITION. The terms the claims are stated in: enabled, halted and faulted states (40_dispatch.md R66, R77), runs of
any length, and the invariant of the machine's states. A run is safe while no fatal error is recorded. -/

namespace Sys2Proof.Machine

/-- A step is enabled (R66). -/
abbrev Enabled (s : State) : Prop := s.running = true ∧ s.fault = none

/-- A run has ended halted (R77). -/
abbrev Halted (s : State) : Prop := s.running = false ∧ s.fault = none

/-- A run has ended faulted (R77): `running` keeps its value true (R114). -/
abbrev Faulted (s : State) : Prop := s.running = true ∧ s.fault ≠ none

/-- `t` is reached from `s` by steps (R75). -/
inductive Reaches (s : State) : State → Prop where
  | refl : Reaches s s
  | tail {t u : State} : Reaches s t → step t = .next u → Reaches s u

/-- At most one of the flags is true and at least one is, once a CMP has written them (R99). -/
def Flags.exactlyOne : Flags → Prop
  | .unset => True
  | .set e l g => (e, l, g) = (true, false, false) ∨ (e, l, g) = (false, true, false) ∨ (e, l, g) = (false, false, true)

/-- The invariant that every step keeps and every loaded start state has. -/
structure State.Inv (s : State) : Prop where
  /-- Memory is in its canonical form inside the 256 cells (R34). -/
  memory : s.mem.wf
  /-- The stack pointer always holds a value (R105). -/
  stackPointer : ∃ v, s.reg Config.spReg = .val v
  /-- The pc is at most 258: 255 and the widest advance (R27). -/
  pcBound : s.pc ≤ 258
  /-- Exactly one flag is true once a CMP has executed (R99). -/
  flags : s.flags.exactlyOne
  /-- A faulted state is not a halted state (R114). -/
  faultRunning : s.fault ≠ none → s.running = true
  /-- A recorded fault carries the pc and is the last diagnostic (R113, R114). -/
  faultRecord : ∀ r, s.fault = some r → r.pc = s.pc ∧ s.events.getLast? = some (.diag (.fatal r))

/-- The registers an instruction may write: the "Writes" column of R12's table. -/
def destRegs : Instr → List Reg
  | .ldi a _ | .not a => [a]
  | .add a _ | .sub a _ | .mul a _ | .and a _ | .or a _ | .xor a _ | .shl a _ | .shr a _ | .mod a _ => [a]
  | .push _ | .call _ | .ret => [Config.spReg]
  | .pop a => [a, Config.spReg]
  | .hlt | .nop | .prn _ | .cmp _ _ | .jmp _ | .jeq _ | .jne _ => []

end Sys2Proof.Machine
end

