-- ==== Sys2Proof/Certificates/Slice0/Obligations.lean ====
section
/-! DEFINITION. The statements for the provers. Each docstring names the rule of spec/ it formalises. A statement about
one instruction gives, for every state and every operand, the state that `exec` answers. Where a rule of spec/ rests on a decision of
92_eei_decisions.md, the docstring names it. -/

/-! ## The forms several statements share -/

namespace Sys2Proof.Claims

open Sys2Proof Sys2Proof.Machine

/-- The operand reads and register checks of one operand byte at `addr`, then `ok`. -/
def ReadsThen (s : State) (addr : Nat) (ok : Byte → Prop) : Prop :=
  (255 < addr → step s = .next (s.raise (.outOfRange addr))) ∧
  (addr ≤ 255 → s.mem.read addr = none → step s = .next (s.raise (.uninitialisedMemory addr))) ∧
  (∀ b, addr ≤ 255 → s.mem.read addr = some b → ok b)

/-- A register field: above 7 the step is `InvalidRegister`, else `ok` of the register it names. -/
def ChecksThen (s : State) (b : Byte) (ok : Reg → Prop) : Prop :=
  (7 < b.toNat → step s = .next (s.raise (.invalidRegister b))) ∧
  (∀ r : Reg, r.val = b.toNat → ok r)

/-- The form of R89 to R96: the encoding, the opcode byte being OPCODE_MAP's whatever its value; both registers are read, `a` first, an
`Unwritten` one being the error (R17, the spec's decision D8); then Ra holds a value that stands in `P` to the two operand values,
the pc advances by 3, and nothing else changes, no flag and no other register. -/
def BinaryAlu (P : Byte → Byte → Byte → Prop) (mk : Reg → Reg → Instr) (m : Mnemonic) : Prop :=
  (∀ a b, encode (mk a b) = [opcodeMap m, BitVec.ofNat 8 a.val, BitVec.ofNat 8 b.val]) ∧
  ∀ a b s,
    (s.reg a = .unwritten → exec (mk a b) s = .next (s.raise (.uninitialisedRegister a))) ∧
    (∀ va, s.reg a = .val va → s.reg b = .unwritten →
      exec (mk a b) s = .next (s.raise (.uninitialisedRegister b))) ∧
    (∀ va vb, s.reg a = .val va → s.reg b = .val vb →
      ∃ r, P va vb r ∧ exec (mk a b) s = .next { s with regs := s.regs.set a (.val r), pc := s.pc + 3 })

/-- The form of R102 and R103: the branch is taken when the Equal flag is `taken`; the flags are read first, L and G are ignored, Ra is
read only when taken, and a register field above 7 is an error at decode, taken or not. -/
def BranchOnEqual (taken : Bool) (mk : Reg → Instr) (m : Mnemonic) : Prop :=
  (∀ a, encode (mk a) = [opcodeMap m, BitVec.ofNat 8 a.val]) ∧
  (∀ a s,
    (s.flags = .unset → exec (mk a) s = .next (s.raise .flagsUndefined)) ∧
    (∀ l g, s.flags = .set taken l g → s.reg a = .unwritten →
      exec (mk a) s = .next (s.raise (.uninitialisedRegister a))) ∧
    (∀ l g t, s.flags = .set taken l g → s.reg a = .val t → exec (mk a) s = .next { s with pc := t.toNat }) ∧
    (∀ l g, s.flags = .set (!taken) l g → exec (mk a) s = .next { s with pc := s.pc + 2 })) ∧
  (∀ s b, Enabled s → s.memRead s.pc = .ok (opcodeMap m) → s.memRead (s.pc + 1) = .ok b → 7 < b.toNat →
    step s = .next (s.raise (.invalidRegister b)))

/-- The 8 characters of a byte, most significant bit first, as a program file writes it (R129). -/
def literalChars (b : Byte) : List Char :=
  [7, 6, 5, 4, 3, 2, 1, 0].map (fun k => if b.getLsbD k then '1' else '0')

/-- A line of a program file: a byte's literal or nothing, then a comment or nothing (R129). -/
def lineOf (l : Option Byte × Option (List Char)) : List Char :=
  (match l.1 with | some b => literalChars b | none => []) ++
  (match l.2 with | some comment => '#' :: comment | none => [])

end Sys2Proof.Claims

open Sys2Proof Sys2Proof.Machine Sys2Proof.Claims

/-! ## Encoding and decoding -/

/-- R52, R62 (byte values from the LS-8 assignment, general knowledge G2, decision D1: PRESUMED, log 6): the opcode byte of each of the
22 instructions, the 22 values distinct, and the widths and formats of the table; the other 234 bytes are no opcode, DIV's 0xA3 and
the other LS-8 bytes outside the closed set among them. -/
def Obligations.OpcodeTableValues : Prop :=
  Config.mnemonics.map opcodeMap =
    [0x01#8, 0x82#8, 0x47#8, 0x00#8, 0xA0#8, 0xA1#8, 0xA2#8, 0xA8#8, 0xAA#8, 0xAB#8, 0xAC#8, 0xAD#8, 0xA4#8, 0x69#8,
     0xA7#8, 0x54#8, 0x55#8, 0x56#8, 0x45#8, 0x46#8, 0x50#8, 0x11#8] ∧
  Config.mnemonics.map widthOf = [1, 3, 2, 1, 3, 3, 3, 3, 3, 3, 3, 3, 3, 2, 3, 2, 2, 2, 2, 2, 2, 1] ∧
  (Config.mnemonics.map fun m => match rowOf m with | .n _ => "N" | .r _ => "R" | .rr _ => "RR" | .ri _ => "RI") =
    ["N", "RI", "R", "N", "RR", "RR", "RR", "RR", "RR", "RR", "RR", "RR", "RR", "R", "RR", "R", "R", "R", "R", "R", "R", "N"] ∧
  (∀ m, m ∈ Config.mnemonics) ∧ (Config.mnemonics.map opcodeMap).Nodup ∧
  ((List.range 256).filter (fun n => BitVec.ofNat 8 n ∉ Config.mnemonics.map opcodeMap)).length = 234 ∧
  (∀ op ∈ [0xA3#8, 0x65#8, 0x66#8, 0x83#8, 0x84#8, 0x48#8, 0x52#8, 0x13#8, 0x57#8, 0x58#8, 0x59#8, 0x5A#8],
    decodeOp op = none)

/-- A few words written out bit by bit from R52 and R65 decode to the instruction they stand for: one of each format and of each
family. -/
def Obligations.WrittenWordsDecode : Prop :=
  decode [0b00000001#8] = .ok (.hlt, []) ∧
  decode [0b10000010#8, 0b00000000#8, 0b00001000#8] = .ok (.ldi 0 8#8, []) ∧
  decode [0b01000111#8, 0b00000000#8] = .ok (.prn 0, []) ∧
  decode [0b10100010#8, 0b00000000#8, 0b00000001#8] = .ok (.mul 0 1, []) ∧
  decode [0b10101100#8, 0b00000010#8, 0b00000011#8] = .ok (.shl 2 3, []) ∧
  decode [0b01101001#8, 0b00000010#8, 0b00000001#8] = .ok (.not 2, [0b00000001#8]) ∧
  decode [0b10100111#8, 0b00000000#8, 0b00000010#8] = .ok (.cmp 0 2, []) ∧
  decode [0b01010101#8, 0b00000011#8] = .ok (.jeq 3, []) ∧
  decode [0b01010000#8, 0b00000001#8] = .ok (.call 1, []) ∧
  decode [0b00010001#8] = .ok (.ret, [])

/-- R53 (from general knowledge, G3): for all 22 opcodes, bits 7:6 plus one are the width, bit 5 is 1 exactly for the ALU operations
and bit 4 is 1 exactly for the instructions that set the pc. -/
def Obligations.OpcodeLayoutAgreesWithWidth : Prop :=
  ∀ m : Mnemonic,
    ((opcodeMap m).extractLsb' 6 2).toNat + 1 = widthOf m ∧
    ((opcodeMap m).getLsbD 5 = true ↔
      m ∈ [.add, .sub, .mul, .and, .or, .xor, .shl, .shr, .mod, .not, .cmp]) ∧
    ((opcodeMap m).getLsbD 4 = true ↔ m ∈ [.jmp, .jeq, .jne, .call, .ret])

/-- R54, R65 (a): whatever the opcode table, as long as its 22 values are distinct, decoding the bytes of an instruction, followed
by any bytes, gives the instruction back with every operand, and leaves the bytes after it. -/
def Obligations.DecodeOfEncode : Prop :=
  ∀ (map : Mnemonic → Byte), Function.Injective map →
    ∀ (i : Instr) (rest : List Byte), decodeWith map (encodeWith map i ++ rest) = .ok (i, rest)

/-- R51, R55: each byte string has one meaning. Whatever the opcode table, bytes that decode are exactly the bytes of the
decoded instruction followed by the rest, and the instruction is well formed. -/
def Obligations.EncodeOfDecode : Prop :=
  ∀ (map : Mnemonic → Byte) (bs : List Byte) (i : Instr) (rest : List Byte),
    decodeWith map bs = .ok (i, rest) → bs = encodeWith map i ++ rest ∧ i.wellFormed = true

/-- R54: decoding the opcode byte is total and is the lookup of the whole byte in the table: whatever the table, as long as its 22
values are distinct, the mnemonic whose opcode equals the byte, or none when there is no such mnemonic. -/
def Obligations.DecodeIsTableLookup : Prop :=
  ∀ (map : Mnemonic → Byte), Function.Injective map → ∀ op : Byte,
    (∀ m, decodeOpWith map op = some m ↔ map m = op) ∧ (decodeOpWith map op = none ↔ ∀ m, map m ≠ op)

/-- R69: a fetched byte that none of the 22 instructions has as its opcode is the fatal error `InvalidOpcode`, whatever stands after it in
memory: no operand is read. -/
def Obligations.IllegalOpcodeFaults : Prop :=
  ∀ s op, Enabled s → s.memRead s.pc = .ok op → (∀ m, opcodeMap m ≠ op) → step s = .next (s.raise (.invalidOpcode op))

/-! ## The step -/

/-- When the bytes at the pc decode to an instruction, a step at an enabled state is `exec` of it, with nothing added around it. -/
def Obligations.StepRunsDecodedInstruction : Prop :=
  ∀ (s : State) (bs : List Byte) (i : Instr) (rest : List Byte), Enabled s →
    (∀ k b, bs[k]? = some b → s.memRead (s.pc + k) = .ok b) →
    decode bs = .ok (i, rest) → i.wellFormed = true ∧ step s = exec i s

/-- R68 (D5, D9): fetch reads the opcode at the pc; a pc of 256 or more is `OutOfRange(pc)`, and an `Unwritten` cell at the pc is
`UninitialisedMemory(pc)`. -/
def Obligations.FetchErrors : Prop :=
  ∀ s, Enabled s →
    (256 ≤ s.pc → step s = .next (s.raise (.outOfRange s.pc))) ∧
    (s.pc ≤ 255 → s.mem.read s.pc = none → step s = .next (s.raise (.uninitialisedMemory s.pc)))

/-- R67, R70, R71 (D7, D15): after an opcode of the table, exactly the operand bytes of its format are read, at pc+1 and then pc+2,
each out of range or `Unwritten` being its error; then the register fields are checked, `a` first; then the instruction executes. -/
def Obligations.OperandReadsThenRegisterChecks : Prop :=
  ∀ s op m, Enabled s → s.memRead s.pc = .ok op → opcodeMap m = op →
    match rowOf m with
    | .n i => step s = exec i s
    | .r mk => ReadsThen s (s.pc + 1) fun a => ChecksThen s a fun ra => step s = exec (mk ra) s
    | .rr mk => ReadsThen s (s.pc + 1) fun a => ReadsThen s (s.pc + 2) fun b =>
        ChecksThen s a fun ra => ChecksThen s b fun rb => step s = exec (mk ra rb) s
    | .ri mk => ReadsThen s (s.pc + 1) fun a => ReadsThen s (s.pc + 2) fun imm =>
        ChecksThen s a fun ra => step s = exec (mk ra imm) s

/-- R66 (D22): a step is enabled exactly in the running states without a fault. There it always answers a next state: no instruction
is refused and none stops the model. Elsewhere there is no step. -/
def Obligations.StepEnabledExactly : Prop :=
  ∀ s, (∃ t, step s = .next t) ↔ (s.running = true ∧ s.fault = none)

/-- R74, R114 (D15, D22): a step that raises a fatal error leaves the state it started from with only the fault record and its
diagnostic added; the record's pc is the address of the faulting instruction's opcode, `running` stays true, and no step follows. -/
def Obligations.FatalErrorIsPrecise : Prop :=
  ∀ s t r, step s = .next t → t.fault = some r →
    r.pc = s.pc ∧ t = { s with fault := some r, events := s.events ++ [.diag (.fatal r)] } ∧
    t.running = true ∧ ∀ u, step t ≠ .next u

/-- R29 (D22): `fault` is None at the start of a run, raising an error sets it to the error with the pc, and a state whose fault is
recorded executes nothing, so the record is never cleared. -/
def Obligations.FaultIsFinal : Prop :=
  (∀ p s, load p = .ok s → s.fault = none) ∧
  (∀ (s : State) e, (s.raise e).fault = some ⟨e, s.pc⟩) ∧
  (∀ s r, s.fault = some r → (∀ t, step s ≠ .next t) ∧ ∀ t, Reaches s t → t = s)

/-- R24: `running` is true at the start; a step clears it only for HLT and for MOD with a zero divisor, and does clear it there; nothing
sets it true again. -/
def Obligations.RunningClearedOnlyByHalts : Prop :=
  (∀ p s, load p = .ok s → s.running = true) ∧
  (∀ s t, step s = .next t →
    (t.running = false ↔
      fetch s = .ok .hlt ∨
      ∃ a b va, fetch s = .ok (.mod a b) ∧ s.reg a = .val va ∧ s.reg b = .val 0#8)) ∧
  (∀ s t, Reaches s t → s.running = false → t.running = false)

/-- R75 (D21): the run loop repeats `step` while it is enabled, with no bound on their number: the states it passes through are exactly
the states reached by steps, and it goes on from where it is. -/
def Obligations.RunLoopRepeatsStep : Prop :=
  (∀ s t, Reaches s t ↔ ∃ n, runFor n s = t) ∧
  (∀ s t n, step s = .next t → runFor (n + 1) s = runFor n t) ∧
  (∀ s n, (∀ t, step s ≠ .next t) → runFor n s = s)

/-- R77 (D22, D34): a run of a loaded program is at each point enabled, halted or faulted, exactly one of the three, and it has ended
exactly where it is not enabled. -/
def Obligations.RunEndsHaltedOrFaulted : Prop :=
  ∀ p s t, load p = .ok s → Reaches s t →
    ((Enabled t ∧ ¬ Halted t ∧ ¬ Faulted t) ∨ (Halted t ∧ ¬ Enabled t ∧ ¬ Faulted t) ∨
      (Faulted t ∧ ¬ Enabled t ∧ ¬ Halted t)) ∧
    ((∃ u, step t = .next u) ↔ Enabled t)

/-! ## The instructions (41 to 44) -/

/-- R79 (D26): HLT clears `running` and advances the pc by 1; nothing else changes. At address 255 too, no byte at 256 being read. -/
def Obligations.HltHalts : Prop :=
  encode .hlt = [opcodeMap .hlt] ∧
  (∀ s, exec .hlt s = .next { s with running := false, pc := s.pc + 1 }) ∧
  (∀ s, Enabled s → s.memRead s.pc = .ok (opcodeMap .hlt) → step s = .next { s with running := false, pc := s.pc + 1 })

/-- R80: LDI gives Ra the immediate unchanged, an `Unwritten` Ra too, and advances by 3; nothing else changes. For Ra = R7 this sets the
stack pointer (R18). -/
def Obligations.LdiLoadsImmediate : Prop :=
  (∀ a imm, encode (.ldi a imm) = [opcodeMap .ldi, BitVec.ofNat 8 a.val, imm]) ∧
  (∀ a imm s, exec (.ldi a imm) s = .next { s with regs := s.regs.set a (.val imm), pc := s.pc + 3 })

/-- R81 (D8, D20): PRN appends `Out` of Ra's value, printed as one unsigned decimal line, and advances by 2; an `Unwritten` Ra is an
error. -/
def Obligations.PrnEmits : Prop :=
  (∀ a, encode (.prn a) = [opcodeMap .prn, BitVec.ofNat 8 a.val]) ∧
  ∀ a s,
    (s.reg a = .unwritten → exec (.prn a) s = .next (s.raise (.uninitialisedRegister a))) ∧
    (∀ v, s.reg a = .val v → ∃ t, exec (.prn a) s = .next t ∧
      t = { s with events := s.events ++ [.out v], pc := s.pc + 2 } ∧ outputLines t = outputLines s ++ [decimal v])

/-- R82: NOP advances the pc by 1 and changes nothing else. -/
def Obligations.NopOnlyAdvances : Prop :=
  encode .nop = [opcodeMap .nop] ∧ ∀ s, exec .nop s = .next { s with pc := s.pc + 1 }

/-- R89: ADD, the sum modulo 256. -/
def Obligations.AddResult : Prop :=
  BinaryAlu (fun va vb r => r.toNat = (va.toNat + vb.toNat) % 256) .add .add

/-- R90: SUB, the integer difference reduced modulo 256. -/
def Obligations.SubResult : Prop :=
  BinaryAlu (fun va vb r => (r.toNat : Int) = ((va.toNat : Int) - (vb.toNat : Int)) % 256) .sub .sub

/-- R91: MUL, the low 8 bits of the product. -/
def Obligations.MulResult : Prop :=
  BinaryAlu (fun va vb r => r.toNat = (va.toNat * vb.toNat) % 256) .mul .mul

/-- R92: AND, bit by bit. -/
def Obligations.AndResult : Prop :=
  BinaryAlu (fun va vb r => ∀ k, r.getLsbD k = (va.getLsbD k && vb.getLsbD k)) .and .and

/-- R93: OR, bit by bit. -/
def Obligations.OrResult : Prop :=
  BinaryAlu (fun va vb r => ∀ k, r.getLsbD k = (va.getLsbD k || vb.getLsbD k)) .or .or

/-- R94: XOR, bit by bit. -/
def Obligations.XorResult : Prop :=
  BinaryAlu (fun va vb r => ∀ k, r.getLsbD k = Bool.xor (va.getLsbD k) (vb.getLsbD k)) .xor .xor

/-- R95 (D16): SHL by the whole value of Rb; an amount of 8 or more gives 0, and an amount of 0 leaves Ra's value. -/
def Obligations.ShlResult : Prop :=
  BinaryAlu (fun va vb r => r.toNat = (va.toNat * 2 ^ vb.toNat) % 256 ∧ (8 ≤ vb.toNat → r = 0#8) ∧ (vb = 0#8 → r = va))
    .shl .shl

/-- R96 (D16): SHR, logical, by the whole value of Rb; an amount of 8 or more gives 0, and an amount of 0 leaves Ra's value. -/
def Obligations.ShrResult : Prop :=
  BinaryAlu (fun va vb r => r.toNat = va.toNat / 2 ^ vb.toNat ∧ (8 ≤ vb.toNat → r = 0#8) ∧ (vb = 0#8 → r = va))
    .shr .shr

/-- R97, R115 (D11, D12, D30): MOD reads both registers, `a` first; a zero divisor appends the divide-by-zero diagnostic with the pc and
the operands and clears `running`, no register, flag or fault changing, and the pc moves by 3 exactly if the OPEN parameter says so,
whatever its value (log 13); otherwise Ra holds the remainder, less than the divisor, and the pc advances by 3. -/
def Obligations.ModResult : Prop :=
  (∀ a b, encode (.mod a b) = [opcodeMap .mod, BitVec.ofNat 8 a.val, BitVec.ofNat 8 b.val]) ∧
  ∀ a b s,
    (s.reg a = .unwritten → exec (.mod a b) s = .next (s.raise (.uninitialisedRegister a))) ∧
    (∀ va, s.reg a = .val va → s.reg b = .unwritten →
      exec (.mod a b) s = .next (s.raise (.uninitialisedRegister b))) ∧
    (∀ va, s.reg a = .val va → s.reg b = .val 0#8 →
      exec (.mod a b) s = .next { s with
        events := s.events ++ [.diag (.divideByZero s.pc a b)], running := false,
        pc := if Config.modZeroAdvancesPc then s.pc + 3 else s.pc }) ∧
    (∀ va vb, s.reg a = .val va → s.reg b = .val vb → vb ≠ 0#8 →
      ∃ r : Byte, r.toNat = va.toNat % vb.toNat ∧ r.toNat < vb.toNat ∧
        exec (.mod a b) s = .next { s with regs := s.regs.set a (.val r), pc := s.pc + 3 })

/-- R98 (D14; 90_conflicts.md C3): NOT inverts every bit of Ra and advances by 2, its width. -/
def Obligations.NotResult : Prop :=
  (∀ a, encode (.not a) = [opcodeMap .not, BitVec.ofNat 8 a.val]) ∧
  ∀ a s,
    (s.reg a = .unwritten → exec (.not a) s = .next (s.raise (.uninitialisedRegister a))) ∧
    (∀ va, s.reg a = .val va →
      ∃ r : Byte, r.toNat = 255 - va.toNat ∧ (∀ k, k < 8 → r.getLsbD k = !va.getLsbD k) ∧
        exec (.not a) s = .next { s with regs := s.regs.set a (.val r), pc := s.pc + 2 })

/-- R99: CMP overwrites the three flags with the unsigned comparison, exactly one of them true, changes no register and advances
by 3. -/
def Obligations.CmpSetsFlags : Prop :=
  (∀ a b, encode (.cmp a b) = [opcodeMap .cmp, BitVec.ofNat 8 a.val, BitVec.ofNat 8 b.val]) ∧
  ∀ a b s,
    (s.reg a = .unwritten → exec (.cmp a b) s = .next (s.raise (.uninitialisedRegister a))) ∧
    (∀ va, s.reg a = .val va → s.reg b = .unwritten →
      exec (.cmp a b) s = .next (s.raise (.uninitialisedRegister b))) ∧
    (∀ va vb, s.reg a = .val va → s.reg b = .val vb →
      ∃ e l g, (e = true ↔ va = vb) ∧ (l = true ↔ va.toNat < vb.toNat) ∧ (g = true ↔ vb.toNat < va.toNat) ∧
        (Flags.set e l g).exactlyOne ∧
        exec (.cmp a b) s = .next { s with flags := .set e l g, pc := s.pc + 3 })

/-- R101: JMP replaces the pc with Ra's value, 0 to 255, and changes nothing else; an `Unwritten` Ra is an error. A target whose cell is
`Unwritten` faults at the next fetch, not at the JMP. -/
def Obligations.JmpJumps : Prop :=
  (∀ a, encode (.jmp a) = [opcodeMap .jmp, BitVec.ofNat 8 a.val]) ∧
  ∀ a s,
    (s.reg a = .unwritten → exec (.jmp a) s = .next (s.raise (.uninitialisedRegister a))) ∧
    (∀ t, s.reg a = .val t → t.toNat ≤ 255 ∧ exec (.jmp a) s = .next { s with pc := t.toNat }) ∧
    (∀ t, s.reg a = .val t → Enabled s → s.mem.read t.toNat = none →
      ∃ u, exec (.jmp a) s = .next u ∧ u.fault = none ∧ step u = .next (u.raise (.uninitialisedMemory t.toNat)))

/-- R102 (D10, D27): JEQ branches when Equal is set. -/
def Obligations.JeqBranches : Prop := BranchOnEqual true .jeq .jeq

/-- R103 (D10, D27): JNE branches when Equal is clear. -/
def Obligations.JneBranches : Prop := BranchOnEqual false .jne .jne

/-- R106 (D4, D13): PUSH decrements SP modulo 256 and stores at the new SP the value of Ra read after that, so PUSH R7 stores the
decremented SP. The clause for an `Unwritten` R7 says what the model does in a state no run reaches (R105; log 30). -/
def Obligations.PushStores : Prop :=
  (∀ a, encode (.push a) = [opcodeMap .push, BitVec.ofNat 8 a.val]) ∧
  ∀ a s,
    (s.reg Config.spReg = .unwritten → exec (.push a) s = .next (s.raise (.uninitialisedRegister Config.spReg))) ∧
    ∀ sp sp' : Byte, s.reg Config.spReg = .val sp → sp'.toNat = (sp.toNat + 255) % 256 →
      (a ≠ Config.spReg → s.reg a = .unwritten → exec (.push a) s = .next (s.raise (.uninitialisedRegister a))) ∧
      (∀ v, a ≠ Config.spReg → s.reg a = .val v →
        exec (.push a) s = .next { s with
          regs := s.regs.set Config.spReg (.val sp'), mem := s.mem.write sp'.toNat v, pc := s.pc + 2 }) ∧
      (a = Config.spReg →
        exec (.push a) s = .next { s with
          regs := s.regs.set Config.spReg (.val sp'), mem := s.mem.write sp'.toNat sp', pc := s.pc + 2 })

/-- R107 (D9, D13): POP gives Ra the byte at SP and then increments SP modulo 256, so POP R7 leaves the popped value plus one; an
`Unwritten` cell at SP is an error. The clause for an `Unwritten` R7 says what the model does in a state no run reaches (R105; log 30). -/
def Obligations.PopLoads : Prop :=
  (∀ a, encode (.pop a) = [opcodeMap .pop, BitVec.ofNat 8 a.val]) ∧
  ∀ a s,
    (s.reg Config.spReg = .unwritten → exec (.pop a) s = .next (s.raise (.uninitialisedRegister Config.spReg))) ∧
    ∀ sp : Byte, s.reg Config.spReg = .val sp →
      (s.mem.read sp.toNat = none → exec (.pop a) s = .next (s.raise (.uninitialisedMemory sp.toNat))) ∧
      (∀ v sp' : Byte, a ≠ Config.spReg → s.mem.read sp.toNat = some v → sp'.toNat = (sp.toNat + 1) % 256 →
        exec (.pop a) s = .next { s with
          regs := (s.regs.set a (.val v)).set Config.spReg (.val sp'), pc := s.pc + 2 }) ∧
      (∀ v v' : Byte, a = Config.spReg → s.mem.read sp.toNat = some v → v'.toNat = (v.toNat + 1) % 256 →
        exec (.pop a) s = .next { s with regs := s.regs.set Config.spReg (.val v'), pc := s.pc + 2 })

/-- R108 (D6, D13): CALL checks that the return address pc+2 fits in a byte, decrements SP, stores the return address at the new SP and
jumps to Ra's value read after that, so CALL R7 jumps to the decremented SP. The clause for an `Unwritten` R7 says what the model does
in a state no run reaches (R105; log 30). -/
def Obligations.CallStoresAndJumps : Prop :=
  (∀ a, encode (.call a) = [opcodeMap .call, BitVec.ofNat 8 a.val]) ∧
  ∀ a s,
    (255 < s.pc + 2 → exec (.call a) s = .next (s.raise (.returnAddressOutOfRange (s.pc + 2)))) ∧
    (s.pc + 2 ≤ 255 → s.reg Config.spReg = .unwritten →
      exec (.call a) s = .next (s.raise (.uninitialisedRegister Config.spReg))) ∧
    ∀ sp sp' : Byte, s.pc + 2 ≤ 255 → s.reg Config.spReg = .val sp → sp'.toNat = (sp.toNat + 255) % 256 →
      (a ≠ Config.spReg → s.reg a = .unwritten → exec (.call a) s = .next (s.raise (.uninitialisedRegister a))) ∧
      (∀ t : Byte, (a ≠ Config.spReg ∧ s.reg a = .val t ∨ a = Config.spReg ∧ t = sp') →
        exec (.call a) s = .next { s with
          regs := s.regs.set Config.spReg (.val sp'),
          mem := s.mem.write sp'.toNat (BitVec.ofNat 8 (s.pc + 2)), pc := t.toNat })

/-- R109 (D4, D9): RET replaces the pc with the byte at SP and increments SP modulo 256; an `Unwritten` cell at SP is an error. The clause for an
`Unwritten` R7 says what the model does in a state no run reaches (R105; log 30). -/
def Obligations.RetReturns : Prop :=
  encode .ret = [opcodeMap .ret] ∧
  ∀ s,
    (s.reg Config.spReg = .unwritten → exec .ret s = .next (s.raise (.uninitialisedRegister Config.spReg))) ∧
    ∀ sp : Byte, s.reg Config.spReg = .val sp →
      (s.mem.read sp.toNat = none → exec .ret s = .next (s.raise (.uninitialisedMemory sp.toNat))) ∧
      (∀ t sp' : Byte, s.mem.read sp.toNat = some t → sp'.toNat = (sp.toNat + 1) % 256 →
        exec .ret s = .next { s with regs := s.regs.set Config.spReg (.val sp'), pc := t.toNat })

/-! ## Laws over several instructions -/

/-- R110, first law (derived there from R106, R107): PUSH Ra then POP Ra restores every register, SP included, for every a, R7 too; flags,
`running` and events are as before. -/
def Obligations.PushThenPopRestores : Prop :=
  ∀ a s v sp, s.reg a = .val v → s.reg Config.spReg = .val sp →
    ∃ t u, exec (.push a) s = .next t ∧ exec (.pop a) t = .next u ∧
      u.regs = s.regs ∧ u.pc = s.pc + 4 ∧ u.flags = s.flags ∧ u.running = s.running ∧ u.fault = s.fault ∧
      u.events = s.events

/-- R110, second law (derived there from R108, R109): after a CALL at an address p with p+2 a byte, whatever the subroutine does, if it
leaves SP as the CALL left it and the stored byte in place, RET resumes at p+2 with SP as before the CALL. -/
def Obligations.CallThenRetResumes : Prop :=
  ∀ a s t sp v u, s.pc + 2 ≤ 255 → s.reg Config.spReg = .val sp → s.reg a = .val v → exec (.call a) s = .next t →
    u.reg Config.spReg = t.reg Config.spReg →
    (∀ q, t.reg Config.spReg = .val q → u.mem.read q.toNat = t.mem.read q.toNat) →
    ∃ w, exec .ret u = .next w ∧ w.pc = s.pc + 2 ∧ w.reg Config.spReg = .val sp ∧ w.mem = u.mem

/-- R101's corner case and R75: a JMP whose target is its own address steps to the very state it started from, so its run never ends. -/
def Obligations.JumpToSelfNeverEnds : Prop :=
  ∀ s a b v, Enabled s → s.memRead s.pc = .ok (opcodeMap .jmp) → s.memRead (s.pc + 1) = .ok b → b.toNat = a.val →
    s.reg a = .val v → v.toNat = s.pc → ∀ n, runFor n s = s ∧ ∃ t, step (runFor n s) = .next t

/-! ## What an instruction leaves unchanged -/

/-- R12's table, and R84's last sentence: every register outside the "Writes" column is unchanged whatever next state `exec` answers, an
error or not; MOD writes none when Rb is 0. -/
def Obligations.RegisterFrame : Prop :=
  ∀ i s t, exec i s = .next t →
    (∀ r, r ∉ destRegs i → t.reg r = s.reg r) ∧
    (∀ a b, i = .mod a b → s.reg b = .val 0#8 → t.regs = s.regs)

/-- R21, R85: the flags are overwritten only by CMP; every other instruction, MOD by zero included, leaves them as they are, `Unset` too. -/
def Obligations.OnlyCmpWritesFlags : Prop :=
  (∀ i s t, exec i s = .next t → (∀ a b, i ≠ .cmp a b) → t.flags = s.flags) ∧
  (∀ a b s va vb, s.reg a = .val va → s.reg b = .val vb → ∃ t, exec (.cmp a b) s = .next t ∧
    t.flags = .set (decide (va = vb)) (decide (va.toNat < vb.toNat)) (decide (vb.toNat < va.toNat)))

/-- R40, the "Writes" column: PUSH and CALL write memory only at the decremented SP, the address their meanings compute with `decSp`;
every other instruction writes no byte. Whatever next state `exec` answers, every byte outside reads as before. -/
def Obligations.MemoryFrame : Prop :=
  ∀ i s t, exec i s = .next t →
    ((∀ a, i ≠ .push a) → (∀ a, i ≠ .call a) → ∀ addr, t.mem.read addr = s.mem.read addr) ∧
    (∀ addr, (∀ s1 sp, decSp s = .ok s1 → s1.readReg Config.spReg = .ok sp → sp.toNat ≠ addr) →
      t.mem.read addr = s.mem.read addr)

/-- R73 (D11, D26): the pc after an instruction that completes: its width further, or the target. -/
def Obligations.PcAfterInstruction : Prop :=
  ∀ i s t, s.fault = none → exec i s = .next t → t.fault = none →
    match i with
    | .jmp a => s.reg a = .val (BitVec.ofNat 8 t.pc) ∧ t.pc ≤ 255
    | .call a => t.pc ≤ 255 ∧ t.reg a = .val (BitVec.ofNat 8 t.pc)
    | .ret => ∃ sp : Byte, s.reg Config.spReg = .val sp ∧ s.mem.read sp.toNat = some (BitVec.ofNat 8 t.pc) ∧ t.pc ≤ 255
    | .jeq a => ∃ e l g, s.flags = .set e l g ∧
        if e then s.reg a = .val (BitVec.ofNat 8 t.pc) ∧ t.pc ≤ 255 else t.pc = s.pc + 2
    | .jne a => ∃ e l g, s.flags = .set e l g ∧
        if e then t.pc = s.pc + 2 else s.reg a = .val (BitVec.ofNat 8 t.pc) ∧ t.pc ≤ 255
    | .mod _ b => t.pc = if s.reg b = .val 0#8 ∧ Config.modZeroAdvancesPc = false then s.pc else s.pc + 3
    | j => t.pc = s.pc + widthOf j.mnemonic

/-- The frame of the rest of the state (R24, R30, R114): whatever next state `exec` answers, `fault` is as before, or an error was raised
and nothing but the fault record and its diagnostic changed; only HLT and MOD change `running`; and where no error was raised only PRN
and MOD append an event. -/
def Obligations.StatusAndEventsFrame : Prop :=
  ∀ i s t, exec i s = .next t →
    (∃ e, t = s.raise e ∧ t = { s with fault := some ⟨e, s.pc⟩, events := s.events ++ [.diag (.fatal ⟨e, s.pc⟩)] }) ∨
    (t.fault = s.fault ∧
      (i ≠ .hlt → (∀ a b, i ≠ .mod a b) → t.running = s.running) ∧
      ((∀ a, i ≠ .prn a) → (∀ a b, i ≠ .mod a b) → t.events = s.events))

/-- R30 (D12, D20), R113: `events` is empty at the start; PRN appends `Out(v)`, MOD by zero its diagnostic, a fatal error its own, and
nothing else appends; what was there stays, in order. -/
def Obligations.EventsOnlyAppended : Prop :=
  (∀ p s, load p = .ok s → s.events = []) ∧
  ∀ s t, step s = .next t →
    (∃ a v, fetch s = .ok (.prn a) ∧ s.reg a = .val v ∧ t.events = s.events ++ [.out v]) ∨
    (∃ a b va, fetch s = .ok (.mod a b) ∧ s.reg a = .val va ∧ s.reg b = .val 0#8 ∧
      t.events = s.events ++ [.diag (.divideByZero s.pc a b)]) ∨
    (∃ r, t.fault = some r ∧ t.events = s.events ++ [.diag (.fatal r)]) ∨
    (t.fault = none ∧ t.events = s.events)

/-! ## Registers, memory, output -/

/-- R17 (D8): reading a register gives its value, or `UninitialisedRegister` when it holds none; a write makes it hold the value and
leaves the others; a register once written never returns to `Unwritten`, along any run. -/
def Obligations.RegisterCells : Prop :=
  (∀ (s : State) r b, s.reg r = .val b → s.readReg r = .ok b) ∧
  (∀ (s : State) r, s.reg r = .unwritten → s.readReg r = .error (.uninitialisedRegister r)) ∧
  (∀ (s : State) r v, (s.writeReg r v).reg r = .val v ∧ ∀ q, q ≠ r → (s.writeReg r v).reg q = s.reg q) ∧
  (∀ s t r, Reaches s t → s.reg r ≠ .unwritten → t.reg r ≠ .unwritten)

/-- R35 and R37 (D9): MemRead checks the range, then whether the cell holds a value; a cell once given a value never returns to
`Unwritten`, along any run. -/
def Obligations.MemoryCells : Prop :=
  (∀ (s : State) addr, 255 < addr → s.memRead addr = .error (.outOfRange addr)) ∧
  (∀ (s : State) addr, addr ≤ 255 → s.mem.read addr = none → s.memRead addr = .error (.uninitialisedMemory addr)) ∧
  (∀ (s : State) addr b, addr ≤ 255 → s.mem.read addr = some b → s.memRead addr = .ok b) ∧
  (∀ s t addr, Reaches s t → s.mem.read addr ≠ none → t.mem.read addr ≠ none)

/-- R36, R46: a write at an address above 255 is `OutOfRange`; any other is seen by the next read of that cell and by no other cell. -/
def Obligations.ReadSeesLastWrite : Prop :=
  ∀ (s : State) addr v,
    (255 < addr → s.memWrite addr v = .error (.outOfRange addr)) ∧
    (addr ≤ 255 → ∃ t, s.memWrite addr v = .ok t ∧ t.memRead addr = .ok v ∧
      (∀ q, q ≠ addr → t.memRead q = s.memRead q) ∧ t = { s with mem := t.mem })

/-- R49 (D18): the byte a PUSH or a CALL stored, which for PUSH Ra is the value Ra then holds (the decremented SP for R7) and for CALL the
return address, is what the next fetch or operand read at that address reads, with no other action: a state with that memory and its
pc there executes the stored byte, if it is a one-byte instruction, and faults on it, if it is no opcode. -/
def Obligations.FetchSeesStoredByte : Prop :=
  ∀ i s t (sp' : Byte), (∃ a, i = .push a ∨ i = .call a) → s.fault = none → exec i s = .next t → t.fault = none →
    t.reg Config.spReg = .val sp' →
    ∃ v, (∀ a, i = .push a → t.reg a = .val v) ∧ (∀ a, i = .call a → v = BitVec.ofNat 8 (s.pc + 2)) ∧
      t.mem.read sp'.toNat = some v ∧ (∀ u : State, u.mem = t.mem → u.memRead sp'.toNat = .ok v) ∧
      ∀ u : State, Enabled u → u.mem = t.mem → u.pc = sp'.toNat →
      (∀ m j, opcodeMap m = v → rowOf m = .n j → step u = exec j u) ∧
      (v ∉ Config.mnemonics.map opcodeMap → step u = .next (u.raise (.invalidOpcode v)))

/-- R76 (D20): the host prints one line for each `Out(v)`, in order, holding the decimal value of v: digits without a leading zero (log 29)
whose value is v. -/
def Obligations.OutputIsDecimalLines : Prop :=
  (∀ (s : State) v, outputLines (s.emit (.out v)) = outputLines s ++ [decimal v]) ∧
  (∀ (s : State) d, outputLines (s.emit (.diag d)) = outputLines s) ∧
  (∀ v, (decimal v).foldl (fun n c => 10 * n + (c.toNat - '0'.toNat)) 0 = v.toNat ∧
    (∀ c ∈ decimal v, c.isDigit = true) ∧ ((decimal v).head? = some '0' → v = 0#8 ∧ (decimal v).length = 1))

/-! ## Start state and loading -/

/-- R128, R38 (D8, D9, D10, D19, D25), R130: a program of at most 256 bytes loads, byte k at address k and every other cell `Unwritten`,
with R0 to R6 `Unwritten`, R7 = 0xF4, pc 0, flags `Unset`, running, no fault, no events; a longer one does not load. -/
def Obligations.LoadGivesStartState : Prop :=
  (∀ p : List Byte, p.length ≤ 256 → ∃ s, load p = .ok s ∧
    (∀ r : Reg, r.val < 7 → s.reg r = .unwritten) ∧ s.reg 7 = .val 0xF4#8 ∧
    (∀ k, s.mem.read k = p[k]?) ∧ s.pc = 0 ∧ s.flags = .unset ∧ s.running = true ∧ s.fault = none ∧ s.events = []) ∧
  (∀ p : List Byte, 256 < p.length → load p = .error (.memory (.outOfRange 256)))

/-- R128 for the empty program: the model's reset state, field by field. That State.reset is the empty program's start is the model's
choice (log 23). -/
def Obligations.ResetIsEmptyProgramStart : Prop :=
  load [] = .ok State.reset ∧ State.reset.mem = [] ∧ State.reset.pc = 0 ∧ State.reset.flags = .unset ∧
  State.reset.running = true ∧ State.reset.fault = none ∧ State.reset.events = [] ∧
  State.reset.reg 7 = .val 0xF4#8 ∧ ∀ r : Reg, r.val < 7 → State.reset.reg r = .unwritten

/-- R129, R130: a file of lines that each hold an 8-character literal, alone or followed by a comment, or are empty or only a comment, is
read as the bytes of its literals in order, and loads exactly as the program of those bytes does. The second clause rests on log 22, the
model's choice (a DESIGN CHOICE, unsafe for this claim) of what may surround a literal: a line whose text, without its comment and the
white space around it, is neither empty nor a literal makes the whole file a load error, wherever it stands. -/
def Obligations.ProgramFileContract : Prop :=
  (∀ lines : List (Option Byte × Option (List Char)),
    parseFile (lines.map lineOf) = .ok (lines.filterMap fun l => l.1) ∧
    loadFile (lines.map lineOf) = load (lines.filterMap fun l => l.1)) ∧
  (∀ before line after, lineText line ≠ [] → (∀ b, lineText line ≠ literalChars b) →
    ∀ s, loadFile (before ++ line :: after) ≠ .ok s)

/-! ## Invariants and whole-machine laws -/

/-- The state after reset has the invariant, and so has every loaded start state. -/
def Obligations.StartStatesHaveInvariant : Prop :=
  State.reset.Inv ∧ ∀ p s, load p = .ok s → s.Inv

/-- R27, R34, R99, R105, R113, R114: every step from a state with the invariant leads to a state with it: memory stays canonical and inside
the 256 cells, SP holds a value, the pc is at most 258, exactly one flag is true once written, a fault carries the pc and its
diagnostic and never meets a halt. -/
def Obligations.StepKeepsInvariant : Prop :=
  ∀ s t, s.Inv → step s = .next t → t.Inv

/-- R22, R87: the Less and Greater flags are dead. Two states that differ only in them step together: both stop alike, or both go on to
states that again differ at most in them. -/
def Obligations.LessGreaterNeverRead : Prop :=
  ∀ (s : State) e l g l' g',
    match step { s with flags := .set e l g }, step { s with flags := .set e l' g' } with
    | .next t, .next t' => ∃ e2 l2 g2 l3 g3, t.flags = .set e2 l2 g2 ∧ t' = { t with flags := .set e2 l3 g3 }
    | .fault f, .fault f' => f = f'
    | _, _ => False

/-- R22, R76 along runs: what a program prints does not depend on the Less and Greater flags, however long it runs. -/
def Obligations.OutputIndependentOfLessGreater : Prop :=
  ∀ n (s : State) e l g l' g',
    (runFor n { s with flags := .set e l g }).events = (runFor n { s with flags := .set e l' g' }).events

/-- The host's word for a table row, where the next step fetches it, runs as the decoder reads it (the model's own, log 23). -/
def Obligations.PlacedWordRuns : Prop :=
  ∀ s nbits w i, Enabled s → s.pc ≤ 253 → decodeTableWord nbits w = some i →
    step (s.withFetchWord nbits w) = exec i (s.withFetchWord nbits w)
end

