-- ==== Sys2Proof/Laws/AluFunctions.lean ====
section
/-! SUPPORT. The value of each ALU function as a number, and the bit-vector operation it equals. -/

namespace Sys2Proof.Machine

theorem aluAdd_eq (va vb : Byte) : aluAdd va vb = va + vb := by
  apply BitVec.eq_of_toNat_eq; simp [aluAdd, BitVec.toNat_add]

theorem aluSub_eq (va vb : Byte) : aluSub va vb = va - vb := by
  apply BitVec.eq_of_toNat_eq
  have := va.isLt
  have := vb.isLt
  simp only [aluSub, BitVec.toNat_ofInt, BitVec.toNat_sub]
  omega

theorem aluMul_eq (va vb : Byte) : aluMul va vb = va * vb := by
  apply BitVec.eq_of_toNat_eq; simp [aluMul, BitVec.toNat_mul]

theorem aluShl_toNat (va vb : Byte) : (aluShl va vb).toNat = va.toNat * 2 ^ vb.toNat % 256 := by
  simp [aluShl]

theorem aluShr_toNat (va vb : Byte) : (aluShr va vb).toNat = va.toNat / 2 ^ vb.toNat := by
  have : va.toNat / 2 ^ vb.toNat ≤ va.toNat := Nat.div_le_self _ _
  have := va.isLt
  simp only [aluShr, BitVec.toNat_ofNat]
  exact Nat.mod_eq_of_lt (by omega)

theorem aluMod_toNat (va vb : Byte) : (aluMod va vb).toNat = va.toNat % vb.toNat := by
  have : va.toNat % vb.toNat ≤ va.toNat := Nat.mod_le _ _
  have := va.isLt
  simp only [aluMod, BitVec.toNat_ofNat]
  exact Nat.mod_eq_of_lt (by omega)

theorem aluNot_toNat (va : Byte) : (aluNot va).toNat = 255 - va.toNat := by
  simp only [aluNot, BitVec.toNat_ofNat]
  omega

theorem aluNot_eq (va : Byte) : aluNot va = ~~~va := by
  apply BitVec.eq_of_toNat_eq; rw [aluNot_toNat]; simp [BitVec.toNat_not]

end Sys2Proof.Machine
end

