-- ==== Sys2Proof/Laws/State.lean ====
section
/-! SUPPORT. The fields of every update of the state, and the register read after it: one lemma each, so that no proof
unfolds a record update. -/

namespace Sys2Proof.Machine

/-! ### writeReg -/

@[simp] theorem State.writeReg_regs (s : State) (r : Reg) (v : Byte) : (s.writeReg r v).regs = s.regs.set r (.val v) := rfl
@[simp] theorem State.writeReg_mem (s : State) (r : Reg) (v : Byte) : (s.writeReg r v).mem = s.mem := rfl
@[simp] theorem State.writeReg_pc (s : State) (r : Reg) (v : Byte) : (s.writeReg r v).pc = s.pc := rfl
@[simp] theorem State.writeReg_flags (s : State) (r : Reg) (v : Byte) : (s.writeReg r v).flags = s.flags := rfl
@[simp] theorem State.writeReg_running (s : State) (r : Reg) (v : Byte) : (s.writeReg r v).running = s.running := rfl
@[simp] theorem State.writeReg_fault (s : State) (r : Reg) (v : Byte) : (s.writeReg r v).fault = s.fault := rfl
@[simp] theorem State.writeReg_events (s : State) (r : Reg) (v : Byte) : (s.writeReg r v).events = s.events := rfl

/-! ### writeMem -/

@[simp] theorem State.writeMem_regs (s : State) (a : Nat) (v : Byte) : (s.writeMem a v).regs = s.regs := rfl
@[simp] theorem State.writeMem_mem (s : State) (a : Nat) (v : Byte) : (s.writeMem a v).mem = s.mem.write a v := rfl
@[simp] theorem State.writeMem_pc (s : State) (a : Nat) (v : Byte) : (s.writeMem a v).pc = s.pc := rfl
@[simp] theorem State.writeMem_flags (s : State) (a : Nat) (v : Byte) : (s.writeMem a v).flags = s.flags := rfl
@[simp] theorem State.writeMem_running (s : State) (a : Nat) (v : Byte) : (s.writeMem a v).running = s.running := rfl
@[simp] theorem State.writeMem_fault (s : State) (a : Nat) (v : Byte) : (s.writeMem a v).fault = s.fault := rfl
@[simp] theorem State.writeMem_events (s : State) (a : Nat) (v : Byte) : (s.writeMem a v).events = s.events := rfl
@[simp] theorem State.writeMem_reg (s : State) (a : Nat) (v : Byte) (q : Reg) : (s.writeMem a v).reg q = s.reg q := rfl

/-! ### advance -/

@[simp] theorem State.advance_regs (s : State) (n : Nat) : (s.advance n).regs = s.regs := rfl
@[simp] theorem State.advance_mem (s : State) (n : Nat) : (s.advance n).mem = s.mem := rfl
@[simp] theorem State.advance_pc (s : State) (n : Nat) : (s.advance n).pc = s.pc + n := rfl
@[simp] theorem State.advance_flags (s : State) (n : Nat) : (s.advance n).flags = s.flags := rfl
@[simp] theorem State.advance_running (s : State) (n : Nat) : (s.advance n).running = s.running := rfl
@[simp] theorem State.advance_fault (s : State) (n : Nat) : (s.advance n).fault = s.fault := rfl
@[simp] theorem State.advance_events (s : State) (n : Nat) : (s.advance n).events = s.events := rfl
@[simp] theorem State.advance_reg (s : State) (n : Nat) (q : Reg) : (s.advance n).reg q = s.reg q := rfl

/-! ### jump -/

@[simp] theorem State.jump_regs (s : State) (a : Byte) : (s.jump a).regs = s.regs := rfl
@[simp] theorem State.jump_mem (s : State) (a : Byte) : (s.jump a).mem = s.mem := rfl
@[simp] theorem State.jump_pc (s : State) (a : Byte) : (s.jump a).pc = a.toNat := rfl
@[simp] theorem State.jump_flags (s : State) (a : Byte) : (s.jump a).flags = s.flags := rfl
@[simp] theorem State.jump_running (s : State) (a : Byte) : (s.jump a).running = s.running := rfl
@[simp] theorem State.jump_fault (s : State) (a : Byte) : (s.jump a).fault = s.fault := rfl
@[simp] theorem State.jump_events (s : State) (a : Byte) : (s.jump a).events = s.events := rfl
@[simp] theorem State.jump_reg (s : State) (a : Byte) (q : Reg) : (s.jump a).reg q = s.reg q := rfl

/-! ### halt -/

@[simp] theorem State.halt_regs (s : State) : (s.halt).regs = s.regs := rfl
@[simp] theorem State.halt_mem (s : State) : (s.halt).mem = s.mem := rfl
@[simp] theorem State.halt_pc (s : State) : (s.halt).pc = s.pc := rfl
@[simp] theorem State.halt_flags (s : State) : (s.halt).flags = s.flags := rfl
@[simp] theorem State.halt_running (s : State) : (s.halt).running = false := rfl
@[simp] theorem State.halt_fault (s : State) : (s.halt).fault = s.fault := rfl
@[simp] theorem State.halt_events (s : State) : (s.halt).events = s.events := rfl
@[simp] theorem State.halt_reg (s : State) (q : Reg) : (s.halt).reg q = s.reg q := rfl

/-! ### writeFlags -/

@[simp] theorem State.writeFlags_regs (s : State) (f : Flags) : (s.writeFlags f).regs = s.regs := rfl
@[simp] theorem State.writeFlags_mem (s : State) (f : Flags) : (s.writeFlags f).mem = s.mem := rfl
@[simp] theorem State.writeFlags_pc (s : State) (f : Flags) : (s.writeFlags f).pc = s.pc := rfl
@[simp] theorem State.writeFlags_flags (s : State) (f : Flags) : (s.writeFlags f).flags = f := rfl
@[simp] theorem State.writeFlags_running (s : State) (f : Flags) : (s.writeFlags f).running = s.running := rfl
@[simp] theorem State.writeFlags_fault (s : State) (f : Flags) : (s.writeFlags f).fault = s.fault := rfl
@[simp] theorem State.writeFlags_events (s : State) (f : Flags) : (s.writeFlags f).events = s.events := rfl
@[simp] theorem State.writeFlags_reg (s : State) (f : Flags) (q : Reg) : (s.writeFlags f).reg q = s.reg q := rfl

/-! ### emit -/

@[simp] theorem State.emit_regs (s : State) (e : Event) : (s.emit e).regs = s.regs := rfl
@[simp] theorem State.emit_mem (s : State) (e : Event) : (s.emit e).mem = s.mem := rfl
@[simp] theorem State.emit_pc (s : State) (e : Event) : (s.emit e).pc = s.pc := rfl
@[simp] theorem State.emit_flags (s : State) (e : Event) : (s.emit e).flags = s.flags := rfl
@[simp] theorem State.emit_running (s : State) (e : Event) : (s.emit e).running = s.running := rfl
@[simp] theorem State.emit_fault (s : State) (e : Event) : (s.emit e).fault = s.fault := rfl
@[simp] theorem State.emit_events (s : State) (e : Event) : (s.emit e).events = s.events ++ [e] := rfl
@[simp] theorem State.emit_reg (s : State) (e : Event) (q : Reg) : (s.emit e).reg q = s.reg q := rfl

/-! ### raise -/

@[simp] theorem State.raise_regs (s : State) (e : FatalError) : (s.raise e).regs = s.regs := rfl
@[simp] theorem State.raise_mem (s : State) (e : FatalError) : (s.raise e).mem = s.mem := rfl
@[simp] theorem State.raise_pc (s : State) (e : FatalError) : (s.raise e).pc = s.pc := rfl
@[simp] theorem State.raise_flags (s : State) (e : FatalError) : (s.raise e).flags = s.flags := rfl
@[simp] theorem State.raise_running (s : State) (e : FatalError) : (s.raise e).running = s.running := rfl
@[simp] theorem State.raise_fault (s : State) (e : FatalError) : (s.raise e).fault = some ⟨e, s.pc⟩ := rfl
@[simp] theorem State.raise_events (s : State) (e : FatalError) : (s.raise e).events = s.events ++ [.diag (.fatal ⟨e, s.pc⟩)] := rfl
@[simp] theorem State.raise_reg (s : State) (e : FatalError) (q : Reg) : (s.raise e).reg q = s.reg q := rfl

@[simp] theorem State.writeReg_reg_same (s : State) (r : Reg) (v : Byte) : (s.writeReg r v).reg r = .val v := by
  simp [State.reg]

theorem State.writeReg_reg_other (s : State) {r q : Reg} (v : Byte) (h : q ≠ r) :
    (s.writeReg r v).reg q = s.reg q := by
  have : r.val ≠ q.val := fun e => h (Fin.ext e.symm)
  simp [State.reg, Vector.getElem_set_ne _ _ this]

/-- The register read after a write, in one equation. -/
theorem State.writeReg_reg (s : State) (r q : Reg) (v : Byte) :
    (s.writeReg r v).reg q = if q = r then .val v else s.reg q := by
  by_cases h : q = r
  · subst h; simp
  · simp [h, State.writeReg_reg_other]

/-- Two register files with equal cells are equal. -/
theorem State.regs_ext {s t : State} (h : ∀ r, s.reg r = t.reg r) : s.regs = t.regs :=
  Vector.ext fun i hi => h ⟨i, hi⟩

end Sys2Proof.Machine
end

