-- ==== Sys2Proof/Laws/Ops.lean ====
section
/-! SUPPORT. What each shared operation can do, said once: its value where it has one, and, from an answer, what that
answer is. -/

namespace Sys2Proof.Machine

/-! ### How an instruction ends -/

@[simp] theorem complete_ok (s t : State) : complete s (.ok t) = .next t := rfl

@[simp] theorem complete_error (s : State) (e : FatalError) : complete s (.error e) = .next (s.raise e) := rfl

/-- An instruction ends with all of its writes, or with an error taken from the state it started from. -/
theorem complete_next {s t : State} {r : Result State} (h : complete s r = .next t) :
    r = .ok t ∨ ∃ e, r = .error e ∧ t = s.raise e := by
  cases r with
  | ok u => exact .inl (by injection h with h; rw [h])
  | error e => exact .inr ⟨e, rfl, by injection h with h; exact h.symm⟩

/-- A sequence of parts answers when the first part does and the rest does on its value. -/
theorem bind_ok {ε α β : Type} {x : Except ε α} {f : α → Except ε β} {b : β} (h : (x >>= f) = .ok b) :
    ∃ a, x = .ok a ∧ f a = .ok b := by
  cases x with
  | ok a => exact ⟨a, rfl, h⟩
  | error e => cases h

@[simp] theorem ok_bind {ε α β : Type} (a : α) (f : α → Except ε β) : ((.ok a : Except ε α) >>= f) = f a := rfl

@[simp] theorem error_bind {ε α β : Type} (e : ε) (f : α → Except ε β) :
    ((.error e : Except ε α) >>= f) = .error e := rfl

/-! ### Registers -/

theorem State.readReg_val {s : State} {r : Reg} {b : Byte} (h : s.reg r = .val b) : s.readReg r = .ok b := by
  simp [State.readReg, h]

theorem State.readReg_unwritten {s : State} {r : Reg} (h : s.reg r = .unwritten) :
    s.readReg r = .error (.uninitialisedRegister r) := by
  simp [State.readReg, h]

theorem State.readReg_ok {s : State} {r : Reg} {b : Byte} (h : s.readReg r = .ok b) : s.reg r = .val b := by
  cases hr : s.reg r with
  | unwritten => simp [State.readReg, hr] at h
  | val c => simp only [State.readReg, hr] at h; cases h; rfl

/-! ### Memory -/

theorem State.memRead_outOfRange {s : State} {addr : Nat} (h : 255 < addr) :
    s.memRead addr = .error (.outOfRange addr) := by
  simp [State.memRead, h]

theorem State.memRead_unwritten {s : State} {addr : Nat} (h : addr ≤ 255) (hr : s.mem.read addr = none) :
    s.memRead addr = .error (.uninitialisedMemory addr) := by
  simp [State.memRead, Nat.not_lt.2 h, hr]

theorem State.memRead_some {s : State} {addr : Nat} {b : Byte} (h : addr ≤ 255) (hr : s.mem.read addr = some b) :
    s.memRead addr = .ok b := by
  simp [State.memRead, Nat.not_lt.2 h, hr]

theorem State.memRead_ok {s : State} {addr : Nat} {b : Byte} (h : s.memRead addr = .ok b) :
    addr ≤ 255 ∧ s.mem.read addr = some b := by
  simp only [State.memRead] at h
  split at h
  · cases h
  · next le =>
    refine ⟨Nat.not_lt.1 le, ?_⟩
    cases hr : s.mem.read addr with
    | none => rw [hr] at h; cases h
    | some c => rw [hr] at h; cases h; rfl

theorem State.memWrite_le {s : State} {addr : Nat} (v : Byte) (h : addr ≤ 255) :
    s.memWrite addr v = .ok (s.writeMem addr v) := by
  simp [State.memWrite, Nat.not_lt.2 h]

theorem State.memWrite_ok {s t : State} {addr : Nat} {v : Byte} (h : s.memWrite addr v = .ok t) :
    addr ≤ 255 ∧ t = s.writeMem addr v := by
  simp only [State.memWrite] at h
  split at h
  · cases h
  · next le => cases h; exact ⟨Nat.not_lt.1 le, rfl⟩

/-! ### Flags -/

theorem State.readEqual_set {s : State} {e l g : Bool} (h : s.flags = .set e l g) : s.readEqual = .ok e := by
  simp [State.readEqual, h]

theorem State.readEqual_unset {s : State} (h : s.flags = .unset) : s.readEqual = .error .flagsUndefined := by
  simp [State.readEqual, h]

theorem State.readEqual_ok {s : State} {e : Bool} (h : s.readEqual = .ok e) : ∃ l g, s.flags = .set e l g := by
  cases hf : s.flags with
  | unset => simp [State.readEqual, hf] at h
  | set e' l g => simp only [State.readEqual, hf] at h; cases h; exact ⟨l, g, rfl⟩

/-! ### Operand forms -/

theorem updateReg_ok {f : Byte → Byte} {a : Reg} {s t : State} (h : updateReg f a s = .ok t) :
    ∃ va, s.reg a = .val va ∧ t = s.writeReg a (f va) := by
  obtain ⟨va, ha, h⟩ := bind_ok h
  cases h
  exact ⟨va, State.readReg_ok ha, rfl⟩

theorem readPair_val {a b : Reg} {s : State} {va vb : Byte} (ha : s.reg a = .val va) (hb : s.reg b = .val vb) :
    readPair a b s = .ok (va, vb) := by
  simp [readPair, State.readReg_val ha, State.readReg_val hb]

theorem readPair_first {a b : Reg} {s : State} (ha : s.reg a = .unwritten) :
    readPair a b s = .error (.uninitialisedRegister a) := by
  simp [readPair, State.readReg_unwritten ha]

theorem readPair_second {a b : Reg} {s : State} {va : Byte} (ha : s.reg a = .val va) (hb : s.reg b = .unwritten) :
    readPair a b s = .error (.uninitialisedRegister b) := by
  simp [readPair, State.readReg_val ha, State.readReg_unwritten hb]

theorem readPair_ok {a b : Reg} {s : State} {va vb : Byte} (h : readPair a b s = .ok (va, vb)) :
    s.reg a = .val va ∧ s.reg b = .val vb := by
  obtain ⟨va', ha, h⟩ := bind_ok h
  obtain ⟨vb', hb, h⟩ := bind_ok h
  cases h
  exact ⟨State.readReg_ok ha, State.readReg_ok hb⟩

theorem combineRegs_ok {f : Byte → Byte → Byte} {a b : Reg} {s t : State} (h : combineRegs f a b s = .ok t) :
    ∃ va vb, s.reg a = .val va ∧ s.reg b = .val vb ∧ t = s.writeReg a (f va vb) := by
  obtain ⟨⟨va, vb⟩, hp, h⟩ := bind_ok h
  obtain ⟨ha, hb⟩ := readPair_ok hp
  cases h
  exact ⟨va, vb, ha, hb, rfl⟩

/-! The stack operations, given the stack pointer's value. -/

theorem decSp_val {s : State} {sp : Byte} (h : s.reg Config.spReg = .val sp) :
    decSp s = .ok (s.writeReg Config.spReg (BitVec.ofInt 8 ((sp.toNat : Int) - 1))) := by
  simp [decSp, State.readReg_val h]

theorem incSp_val {s : State} {sp : Byte} (h : s.reg Config.spReg = .val sp) :
    incSp s = .ok (s.writeReg Config.spReg (BitVec.ofNat 8 (sp.toNat + 1))) := by
  simp [incSp, State.readReg_val h]

theorem storeAtSp_val {s : State} {sp : Byte} (v : Byte) (h : s.reg Config.spReg = .val sp) :
    storeAtSp v s = .ok (s.writeMem sp.toNat v) := by
  have : sp.toNat ≤ 255 := Nat.le_of_lt_succ sp.isLt
  simp [storeAtSp, State.readReg_val h, State.memWrite_le v this]

theorem loadAtSp_val {s : State} {sp v : Byte} (h : s.reg Config.spReg = .val sp)
    (hm : s.mem.read sp.toNat = some v) : loadAtSp s = .ok v := by
  have : sp.toNat ≤ 255 := Nat.le_of_lt_succ sp.isLt
  simp [loadAtSp, State.readReg_val h, State.memRead_some this hm]

theorem loadAtSp_unwritten {s : State} {sp : Byte} (h : s.reg Config.spReg = .val sp)
    (hm : s.mem.read sp.toNat = none) : loadAtSp s = .error (.uninitialisedMemory sp.toNat) := by
  have : sp.toNat ≤ 255 := Nat.le_of_lt_succ sp.isLt
  simp [loadAtSp, State.readReg_val h, State.memRead_unwritten this hm]

/-- The decrement and the increment of SP as numbers (R19). -/
theorem spDec_toNat (sp : Byte) : (BitVec.ofInt 8 ((sp.toNat : Int) - 1)).toNat = (sp.toNat + 255) % 256 := by
  have := sp.isLt
  simp only [BitVec.toNat_ofInt]
  omega

theorem spInc_toNat (sp : Byte) : (BitVec.ofNat 8 (sp.toNat + 1)).toNat = (sp.toNat + 1) % 256 :=
  BitVec.toNat_ofNat _ _

/-! The operand forms and the stack operations, from an answer. -/

theorem decSp_ok {s t : State} (h : decSp s = .ok t) :
    ∃ sp, s.reg Config.spReg = .val sp ∧ t = s.writeReg Config.spReg (BitVec.ofInt 8 ((sp.toNat : Int) - 1)) := by
  obtain ⟨sp, hs, h⟩ := bind_ok h
  cases h
  exact ⟨sp, State.readReg_ok hs, rfl⟩

theorem incSp_ok {s t : State} (h : incSp s = .ok t) :
    ∃ sp, s.reg Config.spReg = .val sp ∧ t = s.writeReg Config.spReg (BitVec.ofNat 8 (sp.toNat + 1)) := by
  obtain ⟨sp, hs, h⟩ := bind_ok h
  cases h
  exact ⟨sp, State.readReg_ok hs, rfl⟩

theorem loadAtSp_ok {s : State} {v : Byte} (h : loadAtSp s = .ok v) :
    ∃ sp, s.reg Config.spReg = .val sp ∧ s.mem.read sp.toNat = some v := by
  obtain ⟨sp, hs, h⟩ := bind_ok h
  exact ⟨sp, State.readReg_ok hs, (State.memRead_ok h).2⟩

theorem storeAtSp_ok {s t : State} {v : Byte} (h : storeAtSp v s = .ok t) :
    ∃ sp, s.reg Config.spReg = .val sp ∧ t = s.writeMem sp.toNat v := by
  obtain ⟨sp, hs, h⟩ := bind_ok h
  exact ⟨sp, State.readReg_ok hs, (State.memWrite_ok h).2⟩

theorem branchIf_ok {taken : Bool} {a : Reg} {s t : State} (h : branchIf taken a s = .ok t) :
    (taken = true ∧ ∃ v, s.reg a = .val v ∧ t = s.jump v) ∨ (taken = false ∧ t = s.advance 2) := by
  cases taken with
  | true =>
    obtain ⟨v, hv, h⟩ := bind_ok h
    cases h
    exact .inl ⟨rfl, v, State.readReg_ok hv, rfl⟩
  | false => cases h; exact .inr ⟨rfl, rfl⟩

end Sys2Proof.Machine
end

