-- ==== Sys2Proof/Laws/Decode.lean ====
section
/-! SUPPORT. The decoder's parts: the opcode table, a register field, and what a decoded instruction came from. -/

namespace Sys2Proof

/-- The mnemonics' list holds all of them. -/
theorem mem_mnemonics (m : Mnemonic) : m ∈ Config.mnemonics := by cases m <;> decide

/-- An opcode decodes only to a mnemonic that has it. -/
theorem decodeOpWith_some {map : Mnemonic → Byte} {op : Byte} {m : Mnemonic} (h : decodeOpWith map op = some m) :
    map m = op := by
  simpa using List.find?_some h

/-- An opcode decodes to nothing exactly when no mnemonic has it. -/
theorem decodeOpWith_none {map : Mnemonic → Byte} {op : Byte} :
    decodeOpWith map op = none ↔ op ∉ Config.mnemonics.map map := by
  simp [decodeOpWith, List.find?_eq_none]

/-- Under a table with distinct opcodes, an opcode decodes to its mnemonic. -/
theorem decodeOpWith_map {map : Mnemonic → Byte} (hm : Function.Injective map) (m : Mnemonic) :
    decodeOpWith map (map m) = some m := by
  cases h : decodeOpWith map (map m) with
  | none => exact absurd (List.mem_map_of_mem (mem_mnemonics m)) (decodeOpWith_none.1 h)
  | some m' => exact congrArg some (hm (decodeOpWith_some h))

/-- The opcodes of the table are distinct. -/
theorem opcodeMap_injective : Function.Injective opcodeMap := by
  intro m m' h
  cases m <;> cases m' <;> first | rfl | (exact absurd h (by decide))

/-- A byte of at most 7 is a register field. -/
theorem regField_lt {b : Byte} {r : Reg} (h : r.val = b.toNat) : regField b = .ok r := by
  have hb : b.toNat < 8 := h ▸ r.isLt
  simp only [regField, hb, dite_true]
  exact congrArg _ (Fin.ext h.symm)

/-- A byte above 7 is none. -/
theorem regField_gt {b : Byte} (h : 7 < b.toNat) : regField b = .error (.register b) := by
  simp [regField, Nat.not_lt.2 h]

/-- A register field is the whole byte. -/
theorem regField_ok {b : Byte} {r : Reg} (h : regField b = .ok r) : r.val = b.toNat := by
  simp only [regField] at h
  split at h
  · cases h; rfl
  · cases h

/-- The byte a register is written as. -/
theorem regByte_toNat (r : Reg) : (regByte r).toNat = r.val := by
  have := r.isLt
  simp only [regByte, BitVec.toNat_ofNat]
  omega

/-- A byte that is a register field is what the register is written as. -/
theorem regField_eq {b : Byte} {r : Reg} (h : regField b = .ok r) : b = regByte r := by
  apply BitVec.eq_of_toNat_eq
  rw [regByte_toNat, regField_ok h]

/-- The byte a register is written as reads back as it. -/
@[simp] theorem regField_regByte (r : Reg) : regField (regByte r) = .ok r := regField_lt (regByte_toNat r).symm

@[simp] theorem ok_mapError {ε ε' α : Type} (a : α) (f : ε → ε') : (.ok a : Except ε α).mapError f = .ok a := rfl

@[simp] theorem error_mapError {ε ε' α : Type} (e : ε) (f : ε → ε') :
    (.error e : Except ε α).mapError f = .error (f e) := rfl

/-- Naming an error otherwise changes no value. -/
theorem mapError_ok {ε ε' α : Type} {x : Except ε α} {f : ε → ε'} {a : α} (h : x.mapError f = .ok a) : x = .ok a := by
  cases x with
  | ok b => rw [ok_mapError] at h; cases h; rfl
  | error e => cases h

/-- A byte read from a list is in it. -/
theorem byteAt_ok {bs : List Byte} {k : Nat} {b : Byte} (h : byteAt bs k = .ok b) : bs[k]? = some b := by
  simp only [byteAt] at h
  split at h
  · next e => cases h; exact e
  · cases h

/-- What a row built came from its operand bytes, and from nothing else. -/
theorem readOperands_ok {ε : Type} {rd : Nat → Except ε Byte} {bad : Illegal → ε} {addr : Nat} {row : Row} {i : Instr}
    (h : readOperands rd bad addr row = .ok i) :
    row = .n i ∨
    (∃ mk a, row = .r mk ∧ rd (addr + 1) = .ok (regByte a) ∧ i = mk a) ∨
    (∃ mk a b, row = .rr mk ∧ rd (addr + 1) = .ok (regByte a) ∧ rd (addr + 2) = .ok (regByte b) ∧ i = mk a b) ∨
    (∃ mk a imm, row = .ri mk ∧ rd (addr + 1) = .ok (regByte a) ∧ rd (addr + 2) = .ok imm ∧ i = mk a imm) := by
  cases row with
  | n j => cases h; exact .inl rfl
  | r mk =>
    obtain ⟨a, ha, h⟩ := Machine.bind_ok h
    obtain ⟨ra, hra, h⟩ := Machine.bind_ok h
    cases h
    exact .inr (.inl ⟨mk, ra, rfl, regField_eq (mapError_ok hra) ▸ ha, rfl⟩)
  | rr mk =>
    obtain ⟨a, ha, h⟩ := Machine.bind_ok h
    obtain ⟨b, hb, h⟩ := Machine.bind_ok h
    obtain ⟨ra, hra, h⟩ := Machine.bind_ok h
    obtain ⟨rb, hrb, h⟩ := Machine.bind_ok h
    cases h
    exact .inr (.inr (.inl
      ⟨mk, ra, rb, rfl, regField_eq (mapError_ok hra) ▸ ha, regField_eq (mapError_ok hrb) ▸ hb, rfl⟩))
  | ri mk =>
    obtain ⟨a, ha, h⟩ := Machine.bind_ok h
    obtain ⟨b, hb, h⟩ := Machine.bind_ok h
    obtain ⟨ra, hra, h⟩ := Machine.bind_ok h
    cases h
    exact .inr (.inr (.inr ⟨mk, ra, b, rfl, regField_eq (mapError_ok hra) ▸ ha, hb, rfl⟩))

end Sys2Proof

namespace Sys2Proof.Machine

/-- A fetch that finds an instruction read its opcode at the pc, inside memory, and its row built it. -/
theorem fetch_ok {s : State} {i : Instr} (h : fetch s = .ok i) :
    s.pc ≤ 255 ∧ ∃ m, s.memRead s.pc = .ok (opcodeMap m) ∧
      readOperands s.memRead illegalError s.pc (rowOf m) = .ok i := by
  obtain ⟨op, ho, h⟩ := bind_ok h
  refine ⟨(State.memRead_ok ho).1, ?_⟩
  cases hm : decodeOpWith opcodeMap op with
  | none => rw [hm] at h; cases h
  | some m => rw [hm] at h; exact ⟨m, decodeOpWith_some hm ▸ ho, h⟩

/-- A fetch whose opcode is in the table goes on to the operands of its row. -/
theorem fetch_row {s : State} {m : Mnemonic} (h : s.memRead s.pc = .ok (opcodeMap m)) :
    fetch s = readOperands s.memRead illegalError s.pc (rowOf m) := by
  simp [fetch, readInstr, h, decodeOpWith_map opcodeMap_injective]

/-- A fetch whose read of the opcode is an error is that error. -/
theorem fetch_error {s : State} {e : FatalError} (h : s.memRead s.pc = .error e) : fetch s = .error e := by
  simp [fetch, readInstr, h]

/-- A fetch of a byte outside the table. -/
theorem fetch_invalid {s : State} {op : Byte} (h : s.memRead s.pc = .ok op)
    (hop : op ∉ Config.mnemonics.map opcodeMap) : fetch s = .error (.invalidOpcode op) := by
  simp [fetch, readInstr, h, decodeOpWith_none.2 hop, illegalError]

end Sys2Proof.Machine
end

