-- ==== Sys2Proof/Laws/Load.lean ====
section
/-! SUPPORT. One line of a program file at a time, by what the line holds, and the placing of the bytes. -/

namespace Sys2Proof.Machine

/-- A blank or comment-only line is skipped. -/
theorem parseFile_blank {line : List Char} (lines : List (List Char)) (h : lineText line = []) :
    parseFile (line :: lines) = parseFile lines := by
  simp [parseFile, h]

/-- A line that holds a literal gives its byte. -/
theorem parseFile_literal {line : List Char} (lines : List (List Char)) {b : Byte} (h : lineText line ≠ [])
    (hb : binaryLiteral (lineText line) = some b) :
    parseFile (line :: lines) = (parseFile lines >>= fun bs => .ok (b :: bs)) := by
  cases hl : lineText line with
  | nil => exact absurd hl h
  | cons c cs => rw [hl] at hb; simp only [parseFile, hl, hb]

/-- Any other line is a load error. -/
theorem parseFile_malformed {line : List Char} (lines : List (List Char)) (h : lineText line ≠ [])
    (hb : binaryLiteral (lineText line) = none) : parseFile (line :: lines) = .error (.malformed line) := by
  cases hl : lineText line with
  | nil => exact absurd hl h
  | cons c cs => rw [hl] at hb; simp only [parseFile, hl, hb]

/-- Placing a byte that has a cell writes it and goes on. -/
theorem placeBytes_cons {s : State} {addr : Nat} (b : Byte) (bs : List Byte) (h : addr ≤ 255) :
    placeBytes s addr (b :: bs) = placeBytes (s.writeMem addr b) (addr + 1) bs := by
  simp [placeBytes, State.memWrite_le b h]

/-- Placing a byte that has none is a load error. -/
theorem placeBytes_outOfRange {s : State} {addr : Nat} (b : Byte) (bs : List Byte) (h : 255 < addr) :
    placeBytes s addr (b :: bs) = .error (.outOfRange addr) := by
  simp [placeBytes, State.memWrite, h]

end Sys2Proof.Machine
end

