-- ==== Sys2Proof/Laws/Memory.lean ====
section
/-! SUPPORT. Memory: a read after a write, and the canonical form kept by every memory operation. -/

namespace Sys2Proof.Machine

@[simp] theorem Memory.read_nil (a : Nat) : Memory.read [] a = none := rfl

theorem Memory.read_write_same (m : Memory) (a : Nat) (v : Byte) : (m.write a v).read a = some v := by
  induction m with
  | nil => simp [Memory.write, Memory.read]
  | cons c m ih =>
    obtain ⟨addr, b⟩ := c
    simp only [Memory.write]
    split
    · simp [Memory.read]
    · split
      · simp [Memory.read]
      · next h => simp [Memory.read, Ne.symm h, ih]

theorem Memory.read_write_other (m : Memory) {a q : Nat} (v : Byte) (h : q ≠ a) :
    (m.write a v).read q = m.read q := by
  induction m with
  | nil => simp [Memory.write, Memory.read, Memory.unlisted, Ne.symm h]
  | cons c m ih =>
    obtain ⟨addr, b⟩ := c
    simp only [Memory.write]
    split
    · simp [Memory.read, Ne.symm h]
    · split
      · next e => subst e; simp [Memory.read, Ne.symm h]
      · simp [Memory.read, ih]

/-- A read after a write, in one equation. -/
theorem Memory.read_write (m : Memory) (a q : Nat) (v : Byte) :
    (m.write a v).read q = if q = a then some v else m.read q := by
  by_cases h : q = a
  · subst h; simp [Memory.read_write_same]
  · simp [h, Memory.read_write_other]

/-- The entries after a write are the written one and some of the entries before. -/
theorem Memory.mem_write {m : Memory} {a : Nat} {v : Byte} {c : Host.Cell} (h : c ∈ m.write a v) :
    c = (a, v) ∨ c ∈ m := by
  induction m with
  | nil => simpa [Memory.write] using h
  | cons d m ih =>
    obtain ⟨addr, b⟩ := d
    simp only [Memory.write] at h
    split at h
    · simpa using h
    · split at h
      · rcases List.mem_cons.1 h with h | h
        · exact .inl h
        · exact .inr (List.mem_cons_of_mem _ h)
      · rcases List.mem_cons.1 h with h | h
        · exact .inr (h ▸ List.mem_cons_self)
        · exact (ih h).imp_right (List.mem_cons_of_mem _)

/-- A write of a cell that exists keeps the canonical form. -/
theorem Memory.wf_write {m : Memory} (hm : m.wf) {a : Nat} (ha : a < Config.memSize) (v : Byte) :
    (m.write a v).wf := by
  refine ⟨?_, fun c hc => ?_⟩
  · obtain ⟨hs, -⟩ := hm
    induction m with
    | nil => simp [Memory.write]
    | cons d m ih =>
      obtain ⟨addr, b⟩ := d
      obtain ⟨hd, hs'⟩ := List.pairwise_cons.1 hs
      simp only [Memory.write]
      split
      · next lt =>
        refine List.pairwise_cons.2 ⟨fun c hc => ?_, hs⟩
        rcases List.mem_cons.1 hc with rfl | hc
        · exact lt
        · exact Nat.lt_trans lt (hd c hc)
      · split
        · next e => subst e; exact List.pairwise_cons.2 ⟨hd, hs'⟩
        · next nlt ne =>
          refine List.pairwise_cons.2 ⟨fun c hc => ?_, ih hs'⟩
          rcases Memory.mem_write hc with rfl | hc
          · exact Nat.lt_of_le_of_ne (Nat.not_lt.1 nlt) (Ne.symm ne)
          · exact hd c hc
  · rcases Memory.mem_write hc with rfl | hc
    · exact ha
    · exact hm.2 c hc

/-- The memory operation of an instruction keeps the canonical form. -/
theorem State.memWrite_wf {s t : State} {addr : Nat} {v : Byte} (hs : s.mem.wf) (h : s.memWrite addr v = .ok t) :
    t.mem.wf := by
  simp only [State.memWrite] at h
  split at h
  · cases h
  · next le => cases h; exact Memory.wf_write hs (Nat.lt_of_le_of_lt (Nat.not_lt.1 le) (by decide)) v

/-- The loader's memory operation keeps the canonical form. -/
theorem State.poke_wf {s : State} (hs : s.mem.wf) (addr : Nat) (v : Byte) : (s.poke addr v).mem.wf := by
  simp only [State.poke]
  split
  · exact hs
  · next le => exact Memory.wf_write hs (Nat.lt_of_le_of_lt (Nat.not_lt.1 le) (by decide)) v

/-- Memory after reset is in its canonical form. -/
theorem State.reset_mem_wf : State.reset.mem.wf := by decide

end Sys2Proof.Machine
end

