-- ==== Sys2Proof/Laws/Output.lean ====
section
/-! SUPPORT. The decimal digits the host prints. -/

namespace Sys2Proof.Machine

/-- A decimal digit is a digit character, its value is the number's last digit, and it is '0' only for that value. -/
theorem decimalDigit_spec (n : Nat) :
    (decimalDigit n).isDigit = true ∧ (decimalDigit n).toNat - '0'.toNat = n % 10 ∧
      (decimalDigit n = '0' → n % 10 = 0) := by
  have h : n % 10 < 10 := Nat.mod_lt _ (by decide)
  unfold decimalDigit
  generalize n % 10 = d at h
  revert d
  decide

end Sys2Proof.Machine
end

