-- ==== Sys2Proof/Laws/PerInstr.lean ====
section
/-! SUPPORT. The statements made per instruction (LAWS.json): the bytes an instruction is written with are its opcode
followed by well-formed operand bytes, as many as its width says (30_encoding.md R51, R57). -/

namespace Sys2Proof.Laws.EncodedForm

/-- The encoding has the width of the mnemonic and begins with its opcode, and the operand bytes are well formed. -/
def Statement (i : Instr) : Prop :=
  (encode i).length = widthOf i.mnemonic ∧ (encode i).head? = some (opcodeMap i.mnemonic) ∧ i.wellFormed = true

theorem regByte_lt (r : Reg) : (regByte r).toNat < 8 := regByte_toNat r ▸ r.isLt

/-- Operand bytes written from register numbers are well formed. -/
theorem one (a : Reg) : (OperandBytes.r (regByte a)).wellFormed = true := by
  simp [OperandBytes.wellFormed, OperandBytes.regFields, regByte_lt]

theorem two (a b : Reg) : (OperandBytes.rr (regByte a) (regByte b)).wellFormed = true := by
  simp [OperandBytes.wellFormed, OperandBytes.regFields, regByte_lt]

theorem hlt : Statement .hlt := ⟨rfl, rfl, rfl⟩
theorem ldi (a : Reg) (imm : Byte) : Statement (.ldi a imm) := ⟨rfl, rfl, one a⟩
theorem prn (a : Reg) : Statement (.prn a) := ⟨rfl, rfl, one a⟩
theorem nop : Statement .nop := ⟨rfl, rfl, rfl⟩
theorem add (a b : Reg) : Statement (.add a b) := ⟨rfl, rfl, two a b⟩
theorem sub (a b : Reg) : Statement (.sub a b) := ⟨rfl, rfl, two a b⟩
theorem mul (a b : Reg) : Statement (.mul a b) := ⟨rfl, rfl, two a b⟩
theorem and (a b : Reg) : Statement (.and a b) := ⟨rfl, rfl, two a b⟩
theorem or (a b : Reg) : Statement (.or a b) := ⟨rfl, rfl, two a b⟩
theorem xor (a b : Reg) : Statement (.xor a b) := ⟨rfl, rfl, two a b⟩
theorem shl (a b : Reg) : Statement (.shl a b) := ⟨rfl, rfl, two a b⟩
theorem shr (a b : Reg) : Statement (.shr a b) := ⟨rfl, rfl, two a b⟩
theorem mod (a b : Reg) : Statement (.mod a b) := ⟨rfl, rfl, two a b⟩
theorem not (a : Reg) : Statement (.not a) := ⟨rfl, rfl, one a⟩
theorem cmp (a b : Reg) : Statement (.cmp a b) := ⟨rfl, rfl, two a b⟩
theorem jmp (a : Reg) : Statement (.jmp a) := ⟨rfl, rfl, one a⟩
theorem jeq (a : Reg) : Statement (.jeq a) := ⟨rfl, rfl, one a⟩
theorem jne (a : Reg) : Statement (.jne a) := ⟨rfl, rfl, one a⟩
theorem push (a : Reg) : Statement (.push a) := ⟨rfl, rfl, one a⟩
theorem pop (a : Reg) : Statement (.pop a) := ⟨rfl, rfl, one a⟩
theorem call (a : Reg) : Statement (.call a) := ⟨rfl, rfl, one a⟩
theorem ret : Statement .ret := ⟨rfl, rfl, rfl⟩

end Sys2Proof.Laws.EncodedForm
end

