-- ==== Sys2Proof/Laws/Step.lean ====
section
/-! SUPPORT. What executing an instruction can do, said once (`exec_next`), and what a step can do (`step_next`). Every
frame and invariant is a case split over these. -/

namespace Sys2Proof.Machine

/-- The form of a two-register ALU instruction's effect. -/
def BinaryEffect (f : Byte → Byte → Byte) (a b : Reg) (s t : State) : Prop :=
  ∃ va vb, s.reg a = .val va ∧ s.reg b = .val vb ∧ t = (s.writeReg a (f va vb)).advance 3

/-- The effect of an instruction that raises no error. -/
def Effect (i : Instr) (s t : State) : Prop :=
  match i with
  | .hlt => t = s.halt.advance 1
  | .ldi a imm => t = (s.writeReg a imm).advance 3
  | .prn a => ∃ v, s.reg a = .val v ∧ t = (s.emit (.out v)).advance 2
  | .nop => t = s.advance 1
  | .add a b => BinaryEffect aluAdd a b s t
  | .sub a b => BinaryEffect aluSub a b s t
  | .mul a b => BinaryEffect aluMul a b s t
  | .and a b => BinaryEffect aluAnd a b s t
  | .or a b => BinaryEffect aluOr a b s t
  | .xor a b => BinaryEffect aluXor a b s t
  | .shl a b => BinaryEffect aluShl a b s t
  | .shr a b => BinaryEffect aluShr a b s t
  | .mod a b => ∃ va vb, s.reg a = .val va ∧ s.reg b = .val vb ∧
      ((vb = 0#8 ∧ t = s.divideByZeroHalt a b) ∨ (vb ≠ 0#8 ∧ t = (s.writeReg a (aluMod va vb)).advance 3))
  | .not a => ∃ va, s.reg a = .val va ∧ t = (s.writeReg a (aluNot va)).advance 2
  | .cmp a b => ∃ va vb, s.reg a = .val va ∧ s.reg b = .val vb ∧
      t = (s.writeFlags (compareFlags va vb)).advance 3
  | .jmp a => ∃ v, s.reg a = .val v ∧ t = s.jump v
  | .jeq a => ∃ e l g, s.flags = .set e l g ∧
      ((e = true ∧ ∃ v, s.reg a = .val v ∧ t = s.jump v) ∨ (e = false ∧ t = s.advance 2))
  | .jne a => ∃ e l g, s.flags = .set e l g ∧
      ((e = false ∧ ∃ v, s.reg a = .val v ∧ t = s.jump v) ∨ (e = true ∧ t = s.advance 2))
  | .push a => ∃ s1 sp v, decSp s = .ok s1 ∧ s1.reg Config.spReg = .val sp ∧ s1.reg a = .val v ∧
      t = (s1.writeMem sp.toNat v).advance 2
  | .pop a => ∃ sp v s1, s.reg Config.spReg = .val sp ∧ s.mem.read sp.toNat = some v ∧
      incSp (s.writeReg a v) = .ok s1 ∧ t = s1.advance 2
  | .call a => s.pc + 2 ≤ 255 ∧ ∃ s1 sp v, decSp s = .ok s1 ∧ s1.reg Config.spReg = .val sp ∧ s1.reg a = .val v ∧
      t = (s1.writeMem sp.toNat (BitVec.ofNat 8 (s.pc + 2))).jump v
  | .ret => ∃ sp v s1, s.reg Config.spReg = .val sp ∧ s.mem.read sp.toNat = some v ∧
      incSp s = .ok s1 ∧ t = s1.jump v

theorem execBinary_next {f : Byte → Byte → Byte} {a b : Reg} {s t : State} (h : execBinary f a b s = .next t) :
    (∃ e, t = s.raise e) ∨ BinaryEffect f a b s t := by
  rcases complete_next h with h | ⟨e, -, rfl⟩
  · obtain ⟨u, hu, h⟩ := bind_ok h
    obtain ⟨va, vb, ha, hb, rfl⟩ := combineRegs_ok hu
    cases h
    exact .inr ⟨va, vb, ha, hb, rfl⟩
  · exact .inl ⟨e, rfl⟩

/-- An instruction that answers a next state has raised an error from the state it started in, or has its effect. -/
theorem exec_next {i : Instr} {s t : State} (h : exec i s = .next t) : (∃ e, t = s.raise e) ∨ Effect i s t := by
  cases i with
  | add a b => exact execBinary_next h
  | sub a b => exact execBinary_next h
  | mul a b => exact execBinary_next h
  | and a b => exact execBinary_next h
  | or a b => exact execBinary_next h
  | xor a b => exact execBinary_next h
  | shl a b => exact execBinary_next h
  | shr a b => exact execBinary_next h
  | hlt => cases h; exact .inr rfl
  | nop => cases h; exact .inr rfl
  | ldi a imm => cases h; exact .inr rfl
  | prn a =>
    rcases complete_next h with h | ⟨e, -, rfl⟩
    · obtain ⟨v, hv, h⟩ := bind_ok h
      cases h
      exact .inr ⟨v, State.readReg_ok hv, rfl⟩
    · exact .inl ⟨e, rfl⟩
  | mod a b =>
    rcases complete_next h with h | ⟨e, -, rfl⟩
    · obtain ⟨⟨va, vb⟩, hp, h⟩ := bind_ok h
      obtain ⟨ha, hb⟩ := readPair_ok hp
      refine .inr ⟨va, vb, ha, hb, ?_⟩
      dsimp only at h
      split at h
      · next z => cases h; exact .inl ⟨z, rfl⟩
      · next z => cases h; exact .inr ⟨z, rfl⟩
    · exact .inl ⟨e, rfl⟩
  | not a =>
    rcases complete_next h with h | ⟨e, -, rfl⟩
    · obtain ⟨u, hu, h⟩ := bind_ok h
      obtain ⟨va, ha, rfl⟩ := updateReg_ok hu
      cases h
      exact .inr ⟨va, ha, rfl⟩
    · exact .inl ⟨e, rfl⟩
  | cmp a b =>
    rcases complete_next h with h | ⟨e, -, rfl⟩
    · obtain ⟨⟨va, vb⟩, hp, h⟩ := bind_ok h
      obtain ⟨ha, hb⟩ := readPair_ok hp
      cases h
      exact .inr ⟨va, vb, ha, hb, rfl⟩
    · exact .inl ⟨e, rfl⟩
  | jmp a =>
    rcases complete_next h with h | ⟨e, -, rfl⟩
    · rcases branchIf_ok h with ⟨-, v, hv, rfl⟩ | ⟨h, -⟩
      · exact .inr ⟨v, hv, rfl⟩
      · cases h
    · exact .inl ⟨e, rfl⟩
  | jeq a =>
    rcases complete_next h with h | ⟨e, -, rfl⟩
    · obtain ⟨e, he, h⟩ := bind_ok h
      obtain ⟨l, g, hf⟩ := State.readEqual_ok he
      exact .inr ⟨e, l, g, hf, branchIf_ok h⟩
    · exact .inl ⟨e, rfl⟩
  | jne a =>
    rcases complete_next h with h | ⟨e, -, rfl⟩
    · obtain ⟨e, he, h⟩ := bind_ok h
      obtain ⟨l, g, hf⟩ := State.readEqual_ok he
      refine .inr ⟨e, l, g, hf, ?_⟩
      simpa using branchIf_ok h
    · exact .inl ⟨e, rfl⟩
  | push a =>
    rcases complete_next h with h | ⟨e, -, rfl⟩
    · obtain ⟨s1, h1, h⟩ := bind_ok h
      obtain ⟨v, hv, h⟩ := bind_ok h
      obtain ⟨s2, h2, h⟩ := bind_ok h
      obtain ⟨sp, hsp, rfl⟩ := storeAtSp_ok h2
      cases h
      exact .inr ⟨s1, sp, v, h1, hsp, State.readReg_ok hv, rfl⟩
    · exact .inl ⟨e, rfl⟩
  | pop a =>
    rcases complete_next h with h | ⟨e, -, rfl⟩
    · obtain ⟨v, hv, h⟩ := bind_ok h
      obtain ⟨s1, h1, h⟩ := bind_ok h
      obtain ⟨sp, hsp, hm⟩ := loadAtSp_ok hv
      cases h
      exact .inr ⟨sp, v, s1, hsp, hm, h1, rfl⟩
    · exact .inl ⟨e, rfl⟩
  | call a =>
    rcases complete_next h with h | ⟨e, -, rfl⟩
    · dsimp only at h
      split at h
      · cases h
      · next le =>
        obtain ⟨s1, h1, h⟩ := bind_ok h
        obtain ⟨s2, h2, h⟩ := bind_ok h
        obtain ⟨v, hv, h⟩ := bind_ok h
        obtain ⟨sp, hsp, rfl⟩ := storeAtSp_ok h2
        cases h
        exact .inr ⟨Nat.not_lt.1 le, s1, sp, v, h1, hsp, State.readReg_ok hv, rfl⟩
    · exact .inl ⟨e, rfl⟩
  | ret =>
    rcases complete_next h with h | ⟨e, -, rfl⟩
    · obtain ⟨v, hv, h⟩ := bind_ok h
      obtain ⟨s1, h1, h⟩ := bind_ok h
      obtain ⟨sp, hsp, hm⟩ := loadAtSp_ok hv
      cases h
      exact .inr ⟨sp, v, s1, hsp, hm, h1, rfl⟩
    · exact .inl ⟨e, rfl⟩

/-- An enabled step runs the fetched instruction. -/
theorem step_exec {s : State} {i : Instr} (hr : s.running = true) (hf : s.fault = none) (h : fetch s = .ok i) :
    step s = exec i s := by
  simp [step, hf, hr, h]

/-- An enabled step whose fetch raises an error takes it. -/
theorem step_raise {s : State} {e : FatalError} (hr : s.running = true) (hf : s.fault = none)
    (h : fetch s = .error e) : step s = .next (s.raise e) := by
  simp [step, hf, hr, h]

/-- A step that answers a next state was enabled, and took its fetch's error or ran the fetched instruction. -/
theorem step_next {s t : State} (h : step s = .next t) :
    s.running = true ∧ s.fault = none ∧
      ((∃ e, fetch s = .error e ∧ t = s.raise e) ∨ ∃ i, fetch s = .ok i ∧ exec i s = .next t) := by
  simp only [step] at h
  split at h
  · cases h
  · next hf =>
    split at h
    · next hr =>
      refine ⟨hr, hf, ?_⟩
      split at h
      · next i hi => exact .inr ⟨i, hi, h⟩
      · next e he => cases h; exact .inl ⟨e, he, rfl⟩
    · cases h

end Sys2Proof.Machine
end

