-- ==== Sys2Proof/Tests/Slice0.lean ====
section
/-! SUPPORT. Tests. Expected results come from spec/95_test_vectors.md (V<n>, W<n>, P<n>) or from the encodings of
30_encoding.md R52 and R65, written out by hand; the witness_ theorems show a state that meets a statement's hypotheses. -/

namespace Sys2Proof.Tests

open Sys2Proof Sys2Proof.Machine Sys2Proof.Claims

/-- A state after reset with some registers and memory cells written, a pc and flags. -/
def st (regs : List (Reg × Byte)) (mem : List (Nat × Byte)) (pc : Nat) (flags : Flags) : State :=
  let s := regs.foldl (fun s c => s.writeReg c.1 c.2) State.reset
  let s := mem.foldl (fun s c => s.writeMem c.1 c.2) s
  { s with pc := pc, flags := flags }

/-- The next state of an outcome. -/
def after : Out → Option State
  | .next t => some t
  | _ => none

/-- One field of the next state. -/
def see {α : Type} (f : State → α) (o : Out) : Option α := (after o).map f

/-! ### Well-formedness: every check refuses an ill-formed term (R57, R71) -/

theorem test_wellFormed_r : (OperandBytes.r 8#8).wellFormed = false ∧ (OperandBytes.r 7#8).wellFormed = true := by decide
theorem test_wellFormed_rr_first : (OperandBytes.rr 9#8 0#8).wellFormed = false := by decide
theorem test_wellFormed_rr_second : (OperandBytes.rr 0#8 8#8).wellFormed = false := by decide
theorem test_wellFormed_ri :
    (OperandBytes.ri 8#8 0#8).wellFormed = false ∧ (OperandBytes.ri 0#8 255#8).wellFormed = true := by decide

/-! ### Decoding: every constructor by a word written out from R52 and R65 -/

theorem test_decode_hlt : decode [0b00000001#8] = .ok (.hlt, []) := by decide
theorem test_decode_ldi : decode [0b10000010#8, 0x03#8, 0xFF#8] = .ok (.ldi 3 255#8, []) := by decide
theorem test_decode_prn : decode [0b01000111#8, 0x07#8] = .ok (.prn 7, []) := by decide
theorem test_decode_nop : decode [0b00000000#8, 0x01#8] = .ok (.nop, [0x01#8]) := by decide
theorem test_decode_add : decode [0b10100000#8, 0x01#8, 0x02#8] = .ok (.add 1 2, []) := by decide
theorem test_decode_sub : decode [0b10100001#8, 0x01#8, 0x02#8] = .ok (.sub 1 2, []) := by decide
theorem test_decode_mul : decode [0b10100010#8, 0x00#8, 0x01#8] = .ok (.mul 0 1, []) := by decide
theorem test_decode_and : decode [0b10101000#8, 0x01#8, 0x02#8] = .ok (.and 1 2, []) := by decide
theorem test_decode_or : decode [0b10101010#8, 0x01#8, 0x02#8] = .ok (.or 1 2, []) := by decide
theorem test_decode_xor : decode [0b10101011#8, 0x01#8, 0x02#8] = .ok (.xor 1 2, []) := by decide
theorem test_decode_shl : decode [0b10101100#8, 0x01#8, 0x02#8] = .ok (.shl 1 2, []) := by decide
theorem test_decode_shr : decode [0b10101101#8, 0x01#8, 0x02#8] = .ok (.shr 1 2, []) := by decide
theorem test_decode_mod : decode [0b10100100#8, 0x01#8, 0x02#8] = .ok (.mod 1 2, []) := by decide
theorem test_decode_not : decode [0b01101001#8, 0x02#8, 0x11#8] = .ok (.not 2, [0x11#8]) := by decide
theorem test_decode_cmp : decode [0b10100111#8, 0x06#8, 0x05#8] = .ok (.cmp 6 5, []) := by decide
theorem test_decode_jmp : decode [0b01010100#8, 0x03#8] = .ok (.jmp 3, []) := by decide
theorem test_decode_jeq : decode [0b01010101#8, 0x02#8] = .ok (.jeq 2, []) := by decide
theorem test_decode_jne : decode [0b01010110#8, 0x02#8] = .ok (.jne 2, []) := by decide
theorem test_decode_push : decode [0b01000101#8, 0x00#8] = .ok (.push 0, []) := by decide
theorem test_decode_pop : decode [0b01000110#8, 0x01#8] = .ok (.pop 1, []) := by decide
theorem test_decode_call : decode [0b01010000#8, 0x01#8] = .ok (.call 1, []) := by decide
theorem test_decode_ret : decode [0b00010001#8] = .ok (.ret, []) := by decide
/-- V6, V9, V86 and a byte string that ends early. -/
theorem test_decode_refuses :
    decode [0xA3#8, 0#8, 1#8] = .error (.illegal (.opcode 0xA3#8)) ∧
    decode [0xA0#8, 9#8, 8#8] = .error (.illegal (.register 9#8)) ∧
    decode [0x82#8, 8#8, 1#8] = .error (.illegal (.register 8#8)) ∧
    decode [0x82#8, 0#8] = .error (.truncated 2) := by decide
theorem test_decodeTableWord : decodeTableWord 24 0x080082 = some (.ldi 0 8#8) ∧ decodeTableWord 8 0x45 = some (.push 0) ∧
    decodeTableWord 8 0xA3 = none := by decide

/-! ### Control and output (V2, V4, V11, V12, V15 to V18) -/

/-- V11: HLT at 255 executes. -/
theorem test_hlt_at_255 : see (fun t => (t.pc, t.running, t.fault)) (step (st [] [(255, 0x01#8)] 255 .unset)) =
    some (256, false, none) := by decide
/-- V15. -/
theorem test_ldi_sp : see (fun t => (t.reg 7, t.pc)) (step (st [] [(0, 0x82#8), (1, 7#8), (2, 0x40#8)] 0 .unset)) =
    some (.val 0x40#8, 3) := by decide
/-- V17. -/
theorem test_prn_sp : see (fun t => (outputLines t, t.pc)) (step (st [] [(0, 0x47#8), (1, 7#8)] 0 .unset)) =
    some ([['2', '4', '4']], 2) := by decide
/-- V18. -/
theorem test_prn_unwritten : see (fun t => (t.fault, t.pc, t.events)) (step (st [] [(0, 0x47#8), (1, 4#8)] 0 .unset)) =
    some (some ⟨.uninitialisedRegister 4, 0⟩, 0, [.diag (.fatal ⟨.uninitialisedRegister 4, 0⟩)]) := by decide
/-- V12, and the fault at the next fetch. -/
theorem test_nop_at_255 : see (·.pc) (step (st [] [(255, 0#8)] 255 .unset)) = some 256 ∧
    see (·.fault) (step (st [] [] 256 .unset)) = some (some ⟨.outOfRange 256, 256⟩) := by decide

/-! ### ALU (V20 to V49) -/

/-- V20. -/
theorem test_add_wraps : see (·.reg 0) (exec (.add 0 1) (st [(0, 0xFF#8), (1, 1#8)] [] 0 .unset)) = some (.val 0#8) := by decide
/-- V21. -/
theorem test_add_same : see (·.reg 0) (exec (.add 0 0) (st [(0, 0x81#8)] [] 0 .unset)) = some (.val 2#8) := by decide
/-- W3, the row 5, 10. -/
theorem test_sub_borrow : see (·.reg 0) (exec (.sub 0 1) (st [(0, 5#8), (1, 10#8)] [] 0 .unset)) = some (.val 251#8) := by decide
/-- V25. -/
theorem test_mul_low : see (·.reg 0) (exec (.mul 0 1) (st [(0, 255#8), (1, 255#8)] [] 0 .unset)) = some (.val 1#8) := by decide
/-- V26. -/
theorem test_and : see (·.reg 0) (exec (.and 0 1) (st [(0, 0xCC#8), (1, 0xAA#8)] [] 0 .unset)) = some (.val 0x88#8) := by decide
/-- V27. -/
theorem test_or : see (·.reg 0) (exec (.or 0 1) (st [(0, 0xCC#8), (1, 0xAA#8)] [] 0 .unset)) = some (.val 0xEE#8) := by decide
/-- V28. -/
theorem test_xor : see (·.reg 0) (exec (.xor 0 1) (st [(0, 0xCC#8), (1, 0xAA#8)] [] 0 .unset)) = some (.val 0x66#8) := by decide
/-- V30. -/
theorem test_shl : see (·.reg 0) (exec (.shl 0 1) (st [(0, 0x81#8), (1, 1#8)] [] 0 .unset)) = some (.val 2#8) := by decide
/-- V32: the amount is not masked. -/
theorem test_shl_eight : see (·.reg 0) (exec (.shl 0 1) (st [(0, 1#8), (1, 8#8)] [] 0 .unset)) = some (.val 0#8) := by decide
/-- V34: no sign fill. -/
theorem test_shr : see (·.reg 0) (exec (.shr 0 1) (st [(0, 0x81#8), (1, 1#8)] [] 0 .unset)) = some (.val 0x40#8) := by decide
/-- V36. -/
theorem test_shr_nine : see (·.reg 0) (exec (.shr 0 1) (st [(0, 0xFF#8), (1, 9#8)] [] 0 .unset)) = some (.val 0#8) := by decide
/-- V37. -/
theorem test_mod : see (fun t => (t.reg 0, t.pc)) (exec (.mod 0 1) (st [(0, 10#8), (1, 3#8)] [] 6 .unset)) =
    some (.val 1#8, 9) := by decide
/-- V41, W2: every field but the pc, which the OPEN parameter decides. -/
theorem test_mod_zero : see (fun t => (t.reg 0, t.running, t.fault, t.events)) (exec (.mod 0 1) (st [(0, 10#8), (1, 0#8)] [] 6 .unset)) =
    some (.val 10#8, false, none, [.diag (.divideByZero 6 0 1)]) := by
  have h : exec (.mod 0 1) (st [(0, 10#8), (1, 0#8)] [] 6 .unset) =
      .next ((st [(0, 10#8), (1, 0#8)] [] 6 .unset).divideByZeroHalt 0 1) := rfl
  rw [h]
  unfold State.divideByZeroHalt
  generalize Config.modZeroAdvancesPc = p
  revert p
  decide
/-- V44: the byte at pc+2 is not read. -/
theorem test_not : see (fun t => (t.reg 2, t.pc)) (step (st [(2, 0x0F#8)] [(0, 0x69#8), (1, 2#8)] 0 .unset)) =
    some (.val 0xF0#8, 2) := by decide
/-- V53: unsigned. -/
theorem test_cmp_unsigned : see (fun t => (t.flags, t.reg 0)) (exec (.cmp 0 1) (st [(0, 0xFF#8), (1, 0#8)] [] 0 .unset)) =
    some (.set false false true, .val 0xFF#8) := by decide
/-- V54: all three overwritten. -/
theorem test_cmp_overwrites : see (·.flags) (exec (.cmp 0 1) (st [(0, 1#8), (1, 2#8)] [] 0 (.set true false false))) =
    some (.set false true false) := by decide

/-! ### Branches (V56 to V66) -/

/-- V56. -/
theorem test_jmp : see (·.pc) (exec (.jmp 3) (st [(3, 0x40#8)] [] 0x10 .unset)) = some 0x40 := by decide
/-- V58. -/
theorem test_jeq_taken : see (·.pc) (exec (.jeq 2) (st [(2, 0x20#8)] [] 0x10 (.set true false false))) = some 0x20 := by decide
/-- V60: not taken, the unwritten register is not read. -/
theorem test_jeq_not_taken : see (fun t => (t.pc, t.fault)) (exec (.jeq 2) (st [] [] 0x10 (.set false false true))) =
    some (0x12, none) := by decide
/-- V63. -/
theorem test_jne_taken : see (·.pc) (exec (.jne 2) (st [(2, 0x20#8)] [] 0x10 (.set false true false))) = some 0x20 := by decide
/-- V64. -/
theorem test_jne_not_taken : see (·.pc) (exec (.jne 2) (st [(2, 0x20#8)] [] 0x10 (.set true false false))) = some 0x12 := by decide
/-- V66: the register check precedes the flag read. -/
theorem test_jeq_field : see (·.fault) (step (st [] [(0, 0x55#8), (1, 9#8)] 0 .unset)) =
    some (some ⟨.invalidRegister 9#8, 0⟩) := by decide

/-! ### Stack (V68 to V81) -/

/-- V69: SP wraps. -/
theorem test_push_wraps : see (fun t => (t.reg 7, t.mem)) (exec (.push 0) (st [(0, 7#8), (7, 0#8)] [] 0 .unset)) =
    some (.val 0xFF#8, [(0xFF, 7#8)]) := by decide
/-- V70. -/
theorem test_push_sp : see (fun t => (t.reg 7, t.mem)) (exec (.push 7) (st [] [] 0 .unset)) =
    some (.val 0xF3#8, [(0xF3, 0xF3#8)]) := by decide
/-- V72: SP wraps. -/
theorem test_pop_wraps : see (fun t => (t.reg 1, t.reg 7)) (exec (.pop 1) (st [(7, 0xFF#8)] [(0xFF, 9#8)] 0 .unset)) =
    some (.val 9#8, .val 0#8) := by decide
/-- V73. -/
theorem test_pop_sp : see (·.reg 7) (exec (.pop 7) (st [] [(0xF4, 0x10#8)] 0 .unset)) = some (.val 0x11#8) := by decide
/-- V75. -/
theorem test_call : see (fun t => (t.reg 7, t.mem, t.pc)) (exec (.call 1) (st [(1, 0x30#8)] [] 0x0A .unset)) =
    some (.val 0xF3#8, [(0xF3, 0x0C#8)], 0x30) := by decide
/-- V77: nothing of the CALL is visible. -/
theorem test_call_at_254 : see (fun t => (t.fault, t.reg 7, t.mem, t.pc)) (exec (.call 0) (st [(0, 5#8)] [] 254 .unset)) =
    some (some ⟨.returnAddressOutOfRange 256, 254⟩, .val 0xF4#8, [], 254) := by decide
/-- V81: SP wraps. -/
theorem test_ret_wraps : see (fun t => (t.pc, t.reg 7)) (exec .ret (st [(7, 0xFF#8)] [(0xFF, 0x20#8)] 0 .unset)) =
    some (0x20, .val 0#8) := by decide
/-- V80. -/
theorem test_ret_unwritten : see (fun t => (t.fault, t.reg 7)) (exec .ret (st [] [] 0 .unset)) =
    some (some ⟨.uninitialisedMemory 0xF4, 0⟩, .val 0xF4#8) := by decide

/-! ### Loading, output and the ends of a run -/

/-- R65's example: `LDI R0,8` as three lines of a program file, one with a comment, and a blank line. -/
theorem test_parseFile : parseFile [['1','0','0','0','0','0','1','0',' ','#','L'], [], ['0','0','0','0','0','0','0','0'],
    ['#','x'], ['0','0','0','0','1','0','0','0']] = .ok [0x82#8, 0#8, 8#8] := by decide
theorem test_parseFile_malformed : parseFile [['1','0','2']] = .error (.malformed ['1','0','2']) := by decide
/-- V87: the empty program faults at its first fetch. -/
theorem test_empty_program : see (fun t => (t.fault, t.running)) (step State.reset) =
    some (some ⟨.uninitialisedMemory 0, 0⟩, true) := by decide
/-- `Out(72)` is the line `72` (R76); 0 and 255 (R81). -/
theorem test_decimal : decimal 72#8 = ['7', '2'] ∧ decimal 0#8 = ['0'] ∧ decimal 255#8 = ['2', '5', '5'] := by decide
/-- A halted and a faulted state have no step (R66). -/
theorem test_no_step : after (step State.reset.halt) = none ∧ after (step (State.reset.raise .flagsUndefined)) = none := by decide
/-- The host's word at reset is fetched and run. -/
theorem test_withFetchWord : see (fun t => (t.reg 3, t.pc)) (step (State.reset.withFetchWord 24 0xFF0382)) =
    some (.val 0xFF#8, 3) := by decide

/-! ### Witnesses: states that meet the hypotheses of the statements, clause by clause -/

/-- A table with distinct opcodes. -/
theorem witness_injective_table : Function.Injective opcodeMap := opcodeMap_injective
/-- EncodeOfDecode. -/
theorem witness_decodes : decodeWith opcodeMap [0x45#8, 7#8, 1#8] = .ok (.push 7, [1#8]) := by decide
/-- IllegalOpcodeFaults, at the last address. -/
theorem witness_illegal : Enabled (st [] [(255, 0xA3#8)] 255 .unset) ∧
    (st [] [(255, 0xA3#8)] 255 .unset).memRead 255 = .ok 0xA3#8 ∧ ∀ m, opcodeMap m ≠ 0xA3#8 :=
  ⟨by decide, by decide, fun m => by cases m <;> decide⟩
/-- StepRunsDecodedInstruction: the three bytes of an instruction that ends at 255. -/
theorem witness_bytes_at_pc : Enabled (st [] [(253, 0x82#8), (254, 7#8), (255, 9#8)] 253 .unset) ∧
    (∀ k, (h : k < 3) → (st [] [(253, 0x82#8), (254, 7#8), (255, 9#8)] 253 .unset).memRead (253 + k) =
      .ok ([0x82#8, 7#8, 9#8][k])) ∧ decode [0x82#8, 7#8, 9#8] = .ok (.ldi 7 9#8, []) := by decide
/-- FetchErrors: a pc of 256, and an unwritten cell at 255. -/
theorem witness_fetch_errors : (Enabled (st [] [] 256 .unset) ∧ 256 ≤ (st [] [] 256 .unset).pc) ∧
    Enabled (st [] [] 255 .unset) ∧ (st [] [] 255 .unset).mem.read 255 = none := by decide
/-- OperandReadsThenRegisterChecks, BranchOnEqual's decode clause: an opcode of each format; an operand past 255, an
unwritten one, one of 8 and one of 7. -/
theorem witness_operands :
    (∀ m, m ∈ [Mnemonic.hlt, .jeq, .jne, .add, .ldi] →
      Enabled (st [] [(255, opcodeMap m)] 255 .unset) ∧
      (st [] [(255, opcodeMap m)] 255 .unset).memRead 255 = .ok (opcodeMap m) ∧
      (st [] [(254, opcodeMap m)] 254 .unset).mem.read 255 = none ∧
      (st [] [(254, opcodeMap m), (255, 8#8)] 254 .unset).memRead 255 = .ok 8#8 ∧
      (st [] [(254, opcodeMap m), (255, 7#8)] 254 .unset).memRead 255 = .ok 7#8) := by decide
/-- StepEnabledExactly and the ends of a run: an enabled, a halted and a faulted state. -/
theorem witness_ends : Enabled State.reset ∧ Halted State.reset.halt ∧ Faulted (State.reset.raise .flagsUndefined) := by decide
/-- FatalErrorIsPrecise, FaultIsFinal: a step that records a fault. -/
theorem witness_fault : step State.reset = .next (State.reset.raise (.uninitialisedMemory 0)) ∧
    (State.reset.raise (.uninitialisedMemory 0)).fault = some ⟨.uninitialisedMemory 0, 0⟩ := ⟨rfl, rfl⟩
/-- The statements about loaded programs: the empty program and one of a HLT load; a program of 256 bytes and one of 257
are the two sides of the bound. -/
theorem witness_loads : load [] = .ok State.reset ∧ (∃ s, load [0x01#8] = .ok s ∧ s.mem = [(0, 1#8)]) ∧
    (List.replicate 256 0#8).length ≤ 256 ∧ 256 < (List.replicate 257 0#8).length :=
  ⟨rfl, ⟨_, rfl, rfl⟩, by rw [List.length_replicate], by rw [List.length_replicate]; decide⟩
/-- The statements about runs: a NOP at 0 is a step. -/
theorem witness_run : Reaches (st [] [(0, 0#8)] 0 .unset) (st [] [(0, 0#8)] 1 .unset) := .tail .refl rfl
/-- RunningClearedOnlyByHalts: HLT, and MOD with a zero divisor, are fetched. -/
theorem witness_halts : fetch (st [] [(0, 1#8)] 0 .unset) = .ok .hlt ∧
    fetch (st [(0, 9#8), (1, 0#8)] [(0, 0xA4#8), (1, 0#8), (2, 1#8)] 0 .unset) = .ok (.mod 0 1) ∧
    (st [(0, 9#8), (1, 0#8)] [] 0 .unset).reg 1 = .val 0#8 := by decide
/-- HltHalts at 255. -/
theorem witness_hlt : Enabled (st [] [(255, 1#8)] 255 .unset) ∧ (st [] [(255, 1#8)] 255 .unset).memRead 255 = .ok 0x01#8 := by decide
/-- The clauses of PRN, NOT, JMP, BinaryAlu, MOD and CMP: Ra unwritten; Ra written and Rb not; both written, the last
register and the extreme values among them; a zero divisor. -/
theorem witness_registers : (st [] [] 0 .unset).reg 6 = .unwritten ∧
    ((st [(0, 0xFF#8)] [] 0 .unset).reg 0 = .val 0xFF#8 ∧ (st [(0, 0xFF#8)] [] 0 .unset).reg 1 = .unwritten) ∧
    ((st [(6, 0xFF#8), (7, 0#8)] [] 0 .unset).reg 6 = .val 0xFF#8 ∧ (st [(6, 0xFF#8), (7, 0#8)] [] 0 .unset).reg 7 = .val 0#8) ∧
    ((st [(0, 0#8), (1, 8#8)] [] 0 .unset).reg 1 = .val 8#8 ∧ 8#8 ≠ 0#8) := by decide
/-- BranchOnEqual: flags unset; taken with Ra unwritten and written; not taken. -/
theorem witness_branch : (st [] [] 0 .unset).flags = .unset ∧
    ((st [] [] 0 (.set true false false)).flags = .set true false false ∧ (st [] [] 0 (.set true false false)).reg 2 = .unwritten) ∧
    (st [(2, 0xFF#8)] [] 0 (.set false true false)).reg 2 = .val 0xFF#8 := by decide
/-- PUSH, CALL: SP at 0 wraps to 0xFF; R7 unwritten; Ra unwritten and written, and Ra = R7; a CALL at 253 and at 254. -/
theorem witness_push_call : (st [(0, 9#8), (7, 0#8)] [] 253 .unset).reg Config.spReg = .val 0#8 ∧
    (0xFF#8).toNat = ((0#8).toNat + 255) % 256 ∧ (st [(0, 9#8), (7, 0#8)] [] 253 .unset).reg 0 = .val 9#8 ∧
    (st [(7, 0#8)] [] 253 .unset).reg 0 = .unwritten ∧ (0 : Reg) ≠ Config.spReg ∧ (7 : Reg) = Config.spReg ∧
    (st [] [] 253 .unset).pc + 2 ≤ 255 ∧ 255 < (st [] [] 254 .unset).pc + 2 ∧
    (⟨.replicate 8 .unwritten, [], 0, .unset, true, none, []⟩ : State).reg Config.spReg = .unwritten := by decide
/-- POP, RET: SP at 0xFF wraps to 0; its cell unwritten and written. -/
theorem witness_pop_ret : (st [(7, 0xFF#8)] [(255, 0xFF#8)] 0 .unset).reg Config.spReg = .val 0xFF#8 ∧
    (st [(7, 0xFF#8)] [(255, 0xFF#8)] 0 .unset).mem.read (0xFF#8).toNat = some 0xFF#8 ∧
    (st [(7, 0xFF#8)] [] 0 .unset).mem.read (0xFF#8).toNat = none ∧ (0#8).toNat = ((0xFF#8).toNat + 1) % 256 := by decide
/-- CallThenRetResumes, MemoryFrame, FetchSeesStoredByte: a CALL that completes, the state after it serving as the one
the subroutine leaves; its stored byte is at 0xF3. -/
theorem witness_call_completes : ∃ t, exec (.call 1) (st [(1, 0x30#8)] [] 0x0A .unset) = .next t ∧ t.fault = none ∧
    t.reg Config.spReg = .val 0xF3#8 ∧ t.mem.read 0xF3 = some 0x0C#8 := ⟨_, rfl, by decide, by decide, by decide⟩
/-- FetchSeesStoredByte: what PUSH, PUSH R7 and CALL store; a pushed HLT byte and a pushed byte that is no opcode, at the pc of an enabled state. -/
theorem witness_fetch_stored : Enabled (st [(0, 1#8), (7, 0xF3#8)] [(0xF3, 1#8)] 0xF3 .unset) ∧
    opcodeMap .hlt = 1#8 ∧ 0xA3#8 ∉ Config.mnemonics.map opcodeMap ∧
    see (fun t => (t.mem, t.fault)) (exec (.push 0) (st [(0, 1#8)] [] 0 .unset)) = some ([(0xF3, 1#8)], none) ∧
    see (fun t => (t.mem, t.fault)) (exec (.push 7) (st [] [] 0 .unset)) = some ([(0xF3, 0xF3#8)], none) ∧
    see (fun t => (t.mem, t.fault)) (exec (.call 0) (st [(0, 1#8)] [] 253 .unset)) = some ([(0xF3, 0xFF#8)], none) := by decide
/-- JumpToSelfNeverEnds (V57). -/
theorem witness_jump_to_self : Enabled (st [(0, 0x10#8)] [(0x10, 0x54#8), (0x11, 0#8)] 0x10 .unset) ∧
    (st [(0, 0x10#8)] [(0x10, 0x54#8), (0x11, 0#8)] 0x10 .unset).memRead 0x10 = .ok 0x54#8 ∧
    (st [(0, 0x10#8)] [(0x10, 0x54#8), (0x11, 0#8)] 0x10 .unset).memRead 0x11 = .ok 0#8 ∧
    (0#8).toNat = (0 : Reg).val ∧ (st [(0, 0x10#8)] [(0x10, 0x54#8), (0x11, 0#8)] 0x10 .unset).reg 0 = .val 0x10#8 ∧
    (0x10#8).toNat = 0x10 := by decide
/-- The frames: an instruction of each shape answers a next state without an error. -/
theorem witness_frames : ∀ i ∈ [Instr.hlt, .ldi 7 0#8, .prn 0, .nop, .add 0 1, .cmp 0 1, .jmp 0, .push 0, .pop 7, .call 0, .ret],
    see (·.fault) (exec i (st [(0, 1#8), (1, 0#8)] [(0xF4, 9#8)] 0 .unset)) = some none := by decide
/-- RegisterFrame's second clause: a MOD by zero answers a next state. -/
theorem witness_mod_frame : (∃ t, exec (.mod 0 1) (st [(0, 1#8), (1, 0#8)] [] 0 .unset) = .next t) ∧
    (st [(0, 1#8), (1, 0#8)] [] 0 .unset).reg 1 = .val 0#8 := ⟨⟨_, rfl⟩, by decide⟩
/-- MemoryFrame: the address a PUSH stores to is 0xF3, and 0xF4 is outside it. -/
theorem witness_stored_address : ∃ s1, decSp State.reset = .ok s1 ∧ s1.readReg Config.spReg = .ok 0xF3#8 ∧
    (0xF3#8).toNat ≠ 0xF4 := ⟨_, rfl, rfl, by decide⟩
/-- ReadSeesLastWrite: the last cell, and the first address that is none. -/
theorem witness_write : (255 : Nat) ≤ 255 ∧ (255 : Nat) < 256 := by decide
/-- ProgramFileContract: a line that is no literal. -/
theorem witness_malformed : lineText ['1', '0', '2'] ≠ [] ∧ ∀ b, lineText ['1', '0', '2'] ≠ literalChars b :=
  ⟨by decide, fun b h => absurd (congrArg List.length h) (by simp [literalChars, lineText, isSpace])⟩
/-- ProgramFileContract, first clause: a literal with a comment, a blank line and a comment-only line load as one byte. -/
theorem witness_file : [(some 0x01#8, some ['h']), (none, none), (none, some ['x'])].map lineOf =
    [['0', '0', '0', '0', '0', '0', '0', '1', '#', 'h'], [], ['#', 'x']] ∧
    (match loadFile [['0', '0', '0', '0', '0', '0', '0', '1', '#', 'h'], [], ['#', 'x']] with
      | .ok s => s.mem | .error _ => []) = [(0, 0x01#8)] := by decide
/-- JmpJumps, third clause: a target that no load and no instruction wrote, the highest address. -/
theorem witness_jmp_unwritten : (st [(0, 0xFF#8)] [] 0 .unset).reg 0 = .val 0xFF#8 ∧ Enabled (st [(0, 0xFF#8)] [] 0 .unset) ∧
    (st [(0, 0xFF#8)] [] 0 .unset).mem.read (0xFF#8).toNat = none := by decide
/-- StepKeepsInvariant: the invariant holds at a state whose step is an instruction. -/
theorem witness_invariant : (st [] [(0, 0#8)] 0 .unset).Inv ∧ ∃ t, step (st [] [(0, 0#8)] 0 .unset) = .next t :=
  ⟨⟨by decide, ⟨0xF4#8, rfl⟩, by decide, trivial, fun _ => rfl, fun _ h => by cases h⟩, _, rfl⟩
/-- PlacedWordRuns, at the last address with room for three bytes. -/
theorem witness_placed : Enabled (st [] [] 253 .unset) ∧ (st [] [] 253 .unset).pc ≤ 253 ∧
    decodeTableWord 24 0x0100A0 = some (.add 0 1) := by decide

end Sys2Proof.Tests
end

section
/-! PROOF. Who writes the flags and `running` (10_state.md R21, R24): only CMP writes the flags, only HLT and MOD by zero
clear `running`, and nothing sets it true again. -/

namespace Sys2Proof.Machine

/-! ### The graceful halt of MOD by zero: its fields (R97, R115) -/

@[simp] theorem State.divideByZeroHalt_flags (s : State) (a b : Reg) : (s.divideByZeroHalt a b).flags = s.flags := by
  unfold State.divideByZeroHalt
  split <;> rfl

@[simp] theorem State.divideByZeroHalt_running (s : State) (a b : Reg) : (s.divideByZeroHalt a b).running = false := by
  unfold State.divideByZeroHalt
  split <;> rfl

/-! ### What the instructions answer -/

theorem exec_hlt (s : State) : exec .hlt s = .next (s.halt.advance 1) := rfl

theorem exec_mod_zero {a b : Reg} {s : State} {va : Byte} (ha : s.reg a = .val va) (hb : s.reg b = .val 0#8) :
    exec (.mod a b) s = .next (s.divideByZeroHalt a b) := by
  simp [exec, execMod, readPair_val ha hb]

theorem exec_cmp_val {a b : Reg} {s : State} {va vb : Byte} (ha : s.reg a = .val va) (hb : s.reg b = .val vb) :
    exec (.cmp a b) s = .next ((s.writeFlags (compareFlags va vb)).advance 3) := by
  simp [exec, execCmp, readPair_val ha hb]

/-- The Equal flag of CMP as equality of the bytes (R99). -/
theorem compareFlags_eq (va vb : Byte) : compareFlags va vb =
    .set (decide (va = vb)) (decide (va.toNat < vb.toNat)) (decide (vb.toNat < va.toNat)) := by
  simp [compareFlags, BitVec.toNat_inj]

/-! ### The frame of the flags and of `running` -/

/-- Neither the flags nor `running` differ. -/
def SameFlagsRunning (s t : State) : Prop := t.flags = s.flags ∧ t.running = s.running

theorem BinaryEffect.sameFlagsRunning {f : Byte → Byte → Byte} {a b : Reg} {s t : State} (h : BinaryEffect f a b s t) :
    SameFlagsRunning s t := by
  obtain ⟨va, vb, -, -, rfl⟩ := h
  exact ⟨rfl, rfl⟩

theorem decSp_sameFlagsRunning {s t : State} (h : decSp s = .ok t) : SameFlagsRunning s t := by
  obtain ⟨sp, -, rfl⟩ := decSp_ok h
  exact ⟨rfl, rfl⟩

theorem incSp_sameFlagsRunning {s t : State} (h : incSp s = .ok t) : SameFlagsRunning s t := by
  obtain ⟨sp, -, rfl⟩ := incSp_ok h
  exact ⟨rfl, rfl⟩

/-- HLT, MOD and CMP apart, no effect writes the flags or `running`. -/
theorem Effect.sameFlagsRunning {i : Instr} {s t : State} (h : Effect i s t) (hhlt : i ≠ .hlt)
    (hmod : ∀ a b, i ≠ .mod a b) (hcmp : ∀ a b, i ≠ .cmp a b) : SameFlagsRunning s t := by
  cases i with
  | hlt => exact absurd rfl hhlt
  | mod a b => exact absurd rfl (hmod a b)
  | cmp a b => exact absurd rfl (hcmp a b)
  | add | sub | mul | and | or | xor | shl | shr => exact BinaryEffect.sameFlagsRunning h
  | ldi | nop => cases h; exact ⟨rfl, rfl⟩
  | prn | not | jmp => obtain ⟨v, -, rfl⟩ := h; exact ⟨rfl, rfl⟩
  | jeq | jne => obtain ⟨e, l, g, -, ⟨-, v, -, rfl⟩ | ⟨-, rfl⟩⟩ := h <;> exact ⟨rfl, rfl⟩
  | push a =>
    obtain ⟨s1, sp, v, h1, -, -, rfl⟩ := h
    obtain ⟨hf, hr⟩ := decSp_sameFlagsRunning h1
    exact ⟨hf, hr⟩
  | call a =>
    obtain ⟨-, s1, sp, v, h1, -, -, rfl⟩ := h
    obtain ⟨hf, hr⟩ := decSp_sameFlagsRunning h1
    exact ⟨hf, hr⟩
  | pop | ret =>
    obtain ⟨sp, v, s1, -, -, h1, rfl⟩ := h
    obtain ⟨hf, hr⟩ := incSp_sameFlagsRunning h1
    exact ⟨hf, hr⟩

theorem Effect.flags_of_ne_cmp {i : Instr} {s t : State} (h : Effect i s t) (hcmp : ∀ a b, i ≠ .cmp a b) :
    t.flags = s.flags := by
  cases i with
  | hlt => cases h; rfl
  | mod a b => obtain ⟨va, vb, -, -, ⟨-, rfl⟩ | ⟨-, rfl⟩⟩ := h <;> simp
  | _ => exact (h.sameFlagsRunning nofun nofun hcmp).1

/-- An effect that clears `running` is that of HLT or of a MOD whose divisor is zero (R24). -/
theorem Effect.halts {i : Instr} {s t : State} (h : Effect i s t) (hs : s.running = true) (ht : t.running = false) :
    i = .hlt ∨ ∃ a b va, i = .mod a b ∧ s.reg a = .val va ∧ s.reg b = .val 0#8 := by
  cases i with
  | hlt => exact .inl rfl
  | mod a b =>
    obtain ⟨va, vb, ha, hb, ⟨rfl, -⟩ | ⟨-, rfl⟩⟩ := h
    · exact .inr ⟨a, b, va, rfl, ha, hb⟩
    · simp [hs] at ht
  | cmp a b =>
    obtain ⟨va, vb, -, -, rfl⟩ := h
    simp [hs] at ht
  | _ =>
    obtain ⟨-, hr⟩ := h.sameFlagsRunning nofun nofun nofun
    simp [hr, hs] at ht

/-! ### Start states and halted states -/

/-- Placing bytes changes nothing but memory (R129). -/
theorem placeBytes_ok {p : List Byte} {s t : State} {addr : Nat} (h : placeBytes s addr p = .ok t) :
    ∃ m, t = { s with mem := m } := by
  induction p generalizing s addr with
  | nil => cases h; exact ⟨_, rfl⟩
  | cons b bs ih =>
    obtain ⟨u, hu, h⟩ := bind_ok h
    obtain ⟨-, rfl⟩ := State.memWrite_ok hu
    obtain ⟨m, rfl⟩ := ih h
    exact ⟨m, rfl⟩

/-- A loaded start state differs from the state after reset in memory only (R128). -/
theorem load_ok {p : List Byte} {s : State} (h : load p = .ok s) : ∃ m, s = { State.reset with mem := m } :=
  placeBytes_ok (mapError_ok h)

/-- A state that has no step reaches only itself (R66, R75). -/
theorem Reaches.eq_of_no_step {s t : State} (hs : ∀ u, step s ≠ .next u) (h : Reaches s t) : t = s := by
  induction h with
  | refl => rfl
  | tail _ hu ih => subst ih; exact absurd hu (hs _)

theorem step_ne_next_of_not_running {s : State} (h : s.running = false) (u : State) : step s ≠ .next u := by
  intro hu
  obtain ⟨hr, -, -⟩ := step_next hu
  simp [h] at hr

/-- A step clears `running` exactly for HLT and for a MOD whose divisor is zero (R24). -/
theorem step_running_false_iff {s t : State} (h : step s = .next t) :
    t.running = false ↔ fetch s = .ok .hlt ∨
      ∃ a b va, fetch s = .ok (.mod a b) ∧ s.reg a = .val va ∧ s.reg b = .val 0#8 := by
  obtain ⟨hr, -, ⟨e, hf, rfl⟩ | ⟨i, hf, hi⟩⟩ := step_next h
  · simp [hf, hr]
  · rw [hf]
    constructor
    · intro ht
      obtain ⟨e, rfl⟩ | he := exec_next hi
      · simp [hr] at ht
      · simpa using he.halts hr ht
    · rintro (hhlt | ⟨a, b, va, hmod, ha, hb⟩)
      · cases hhlt
        rw [exec_hlt] at hi
        cases hi
        rfl
      · cases hmod
        rw [exec_mod_zero ha hb] at hi
        cases hi
        simp

end Sys2Proof.Machine

namespace Sys2Proof

open Machine

/-- Settles O14: the start states by `load_ok`, the step by `step_running_false_iff`, and a halted state has no step. -/
theorem runningClearedOnlyByHalts : Obligations.RunningClearedOnlyByHalts := by
  refine ⟨fun p s h => ?_, fun s t => step_running_false_iff, fun s t h hs => ?_⟩
  · obtain ⟨m, rfl⟩ := load_ok h
    rfl
  · rw [h.eq_of_no_step (step_ne_next_of_not_running hs)]
    exact hs

/-- Settles O43: an error keeps the flags and so does every effect but that of CMP, which overwrites them. -/
theorem onlyCmpWritesFlags : Obligations.OnlyCmpWritesFlags := by
  refine ⟨fun i s t h hcmp => ?_, fun a b s va vb ha hb => ⟨_, exec_cmp_val ha hb, compareFlags_eq va vb⟩⟩
  obtain ⟨e, rfl⟩ | he := exec_next h
  · rfl
  · exact he.flags_of_ne_cmp hcmp

end Sys2Proof
end

section
/-! The statement about the lookup of the opcode byte (R54). -/

namespace Sys2Proof

/-- Settles O6: what an opcode decodes to has it, and a mnemonic's own opcode decodes to that mnemonic alone. -/
theorem decodeIsTableLookup : Obligations.DecodeIsTableLookup := by
  intro map hm op
  refine ⟨fun m => ⟨decodeOpWith_some, ?_⟩, ?_⟩
  · rintro rfl
    exact decodeOpWith_map hm m
  · simp [decodeOpWith_none, mem_mnemonics]

end Sys2Proof
end

section
/-! The statement about a fetched byte that is no opcode (R69). -/

namespace Sys2Proof

open Machine

/-- A byte that is the opcode of no mnemonic is not in the table of opcodes. -/
theorem not_mem_opcodes {map : Mnemonic → Byte} {op : Byte} (h : ∀ m, map m ≠ op) :
    op ∉ Config.mnemonics.map map := by
  intro hmem
  obtain ⟨m, -, hm⟩ := List.mem_map.1 hmem
  exact h m hm

/-- Settles O7: the fetch ends at the lookup of the opcode, before any operand read, and the step takes its error. -/
theorem illegalOpcodeFaults : Obligations.IllegalOpcodeFaults := by
  rintro s op ⟨hrunning, hfault⟩ hread hop
  have hfetch : fetch s = .error (.invalidOpcode op) := fetch_invalid hread (not_mem_opcodes hop)
  exact step_raise hrunning hfault hfetch

end Sys2Proof
end

section
/-! The statements about LDI and NOP (R80, R82). -/

namespace Sys2Proof.Machine

theorem exec_ldi (a : Reg) (imm : Byte) (s : State) :
    exec (.ldi a imm) s = .next ((s.writeReg a imm).advance 3) := rfl

theorem exec_nop (s : State) : exec .nop s = .next (s.advance 1) := rfl

/-- A register write followed by an advance is one update of the register file and the pc. -/
theorem State.writeReg_advance (s : State) (a : Reg) (v : Byte) (n : Nat) :
    (s.writeReg a v).advance n = { s with regs := s.regs.set a (.val v), pc := s.pc + n } := rfl

end Sys2Proof.Machine

namespace Sys2Proof

open Machine

/-- The bytes of a register-immediate instruction: opcode, register number, immediate (R51, R65). -/
theorem encode_ldi (a : Reg) (imm : Byte) : encode (.ldi a imm) = [opcodeMap .ldi, regByte a, imm] := rfl

/-- An instruction without operands is its opcode alone (R51, R65). -/
theorem encode_nop : encode .nop = [opcodeMap .nop] := rfl

/-- Settles O18: LDI reads no register, so its one outcome, `exec_ldi`, holds for an `Unwritten` Ra too. -/
theorem ldiLoadsImmediate : Obligations.LdiLoadsImmediate := by
  refine ⟨encode_ldi, fun a imm s => ?_⟩
  rw [exec_ldi, State.writeReg_advance]

/-- Settles O20: NOP's one outcome, `exec_nop`, is an advance by its width. -/
theorem nopOnlyAdvances : Obligations.NopOnlyAdvances :=
  ⟨encode_nop, exec_nop⟩

end Sys2Proof
end

section
/-! The statements about the six ALU instructions on two registers that only compute, and about CMP (R89 to R94, R99). -/

namespace Sys2Proof.Machine

/-! ### The common form of a two-register ALU instruction: its outcome, per state of the two cells (R84) -/

theorem execBinary_first {f : Byte → Byte → Byte} {a b : Reg} {s : State} (ha : s.reg a = .unwritten) :
    execBinary f a b s = .next (s.raise (.uninitialisedRegister a)) := by
  simp [execBinary, combineRegs, readPair_first ha]

theorem execBinary_second {f : Byte → Byte → Byte} {a b : Reg} {s : State} {va : Byte} (ha : s.reg a = .val va)
    (hb : s.reg b = .unwritten) : execBinary f a b s = .next (s.raise (.uninitialisedRegister b)) := by
  simp [execBinary, combineRegs, readPair_second ha hb]

theorem execBinary_val {f : Byte → Byte → Byte} {a b : Reg} {s : State} {va vb : Byte} (ha : s.reg a = .val va)
    (hb : s.reg b = .val vb) : execBinary f a b s = .next ((s.writeReg a (f va vb)).advance 3) := by
  simp [execBinary, combineRegs, readPair_val ha hb]

/-! ### CMP: its two errors, and the flags it writes (R99) -/

theorem exec_cmp_first {a b : Reg} {s : State} (ha : s.reg a = .unwritten) :
    exec (.cmp a b) s = .next (s.raise (.uninitialisedRegister a)) := by
  simp [exec, execCmp, readPair_first ha]

theorem exec_cmp_second {a b : Reg} {s : State} {va : Byte} (ha : s.reg a = .val va) (hb : s.reg b = .unwritten) :
    exec (.cmp a b) s = .next (s.raise (.uninitialisedRegister b)) := by
  simp [exec, execCmp, readPair_second ha hb]

/-- A flag write followed by an advance is one update of the flags and the pc. -/
theorem State.writeFlags_advance (s : State) (f : Flags) (n : Nat) :
    (s.writeFlags f).advance n = { s with flags := f, pc := s.pc + n } := rfl

/-- The unsigned order is total: a comparison has exactly one of its three results (R21, R99). -/
theorem compareFlags_exactlyOne (va vb : Byte) : (compareFlags va vb).exactlyOne := by
  obtain hlt | heq | hgt := Nat.lt_trichotomy va.toNat vb.toNat
  · simp [compareFlags, Flags.exactlyOne, hlt, hlt.ne, hlt.le]
  · simp [compareFlags, Flags.exactlyOne, heq]
  · simp [compareFlags, Flags.exactlyOne, hgt, hgt.ne', hgt.le]

end Sys2Proof.Machine

namespace Sys2Proof

open Machine Claims

/-- An instruction of the common form whose ALU function meets `P` has the outcomes that `BinaryAlu` asks for. -/
theorem binaryAlu_of_execBinary {P : Byte → Byte → Byte → Prop} {f : Byte → Byte → Byte} {mk : Reg → Reg → Instr}
    {m : Mnemonic} (hencode : ∀ a b, encode (mk a b) = [opcodeMap m, regByte a, regByte b])
    (hexec : ∀ a b s, exec (mk a b) s = execBinary f a b s) (hP : ∀ va vb, P va vb (f va vb)) : BinaryAlu P mk m := by
  refine ⟨hencode, fun a b s => ?_⟩
  rw [hexec]
  refine ⟨execBinary_first, fun va => execBinary_second, fun va vb ha hb => ⟨f va vb, hP va vb, ?_⟩⟩
  rw [execBinary_val ha hb, State.writeReg_advance]

/-- Settles O21: the addition of bytes is that of their values modulo 256. -/
theorem addResult : Obligations.AddResult := by
  refine binaryAlu_of_execBinary (f := aluAdd) (fun _ _ => rfl) (fun _ _ _ => rfl) fun va vb => ?_
  rw [aluAdd_eq, BitVec.toNat_add]

/-- Settles O22: the value of a byte made from an integer is that integer modulo 256, a negative one too. -/
theorem subResult : Obligations.SubResult := by
  refine binaryAlu_of_execBinary (f := aluSub) (fun _ _ => rfl) (fun _ _ _ => rfl) fun va vb => ?_
  rw [aluSub, BitVec.toNat_ofInt]
  exact Int.toNat_of_nonneg (Int.emod_nonneg _ (by decide))

/-- Settles O23: the multiplication of bytes is that of their values modulo 256. -/
theorem mulResult : Obligations.MulResult := by
  refine binaryAlu_of_execBinary (f := aluMul) (fun _ _ => rfl) (fun _ _ _ => rfl) fun va vb => ?_
  rw [aluMul_eq, BitVec.toNat_mul]

/-- Settles O24: the bits of a bitwise and. -/
theorem andResult : Obligations.AndResult :=
  binaryAlu_of_execBinary (f := aluAnd) (fun _ _ => rfl) (fun _ _ _ => rfl) fun _ _ _ => BitVec.getLsbD_and

/-- Settles O25: the bits of a bitwise inclusive or. -/
theorem orResult : Obligations.OrResult :=
  binaryAlu_of_execBinary (f := aluOr) (fun _ _ => rfl) (fun _ _ _ => rfl) fun _ _ _ => BitVec.getLsbD_or

/-- Settles O26: the bits of a bitwise exclusive or. -/
theorem xorResult : Obligations.XorResult :=
  binaryAlu_of_execBinary (f := aluXor) (fun _ _ => rfl) (fun _ _ _ => rfl) fun _ _ _ => BitVec.getLsbD_xor

/-- Settles O31: the flags are those of `compareFlags`, its Equal flag being equality of the bytes. -/
theorem cmpSetsFlags : Obligations.CmpSetsFlags := by
  refine ⟨fun _ _ => rfl, fun a b s => ⟨exec_cmp_first, fun va => exec_cmp_second, fun va vb ha hb => ?_⟩⟩
  refine ⟨decide (va = vb), decide (va.toNat < vb.toNat), decide (vb.toNat < va.toNat),
    decide_eq_true_iff, decide_eq_true_iff, decide_eq_true_iff, ?_⟩
  rw [← compareFlags_eq]
  exact ⟨compareFlags_exactlyOne va vb, by rw [exec_cmp_val ha hb, State.writeFlags_advance]⟩

end Sys2Proof
end

section
/-! The statement about JMP (R101). -/

namespace Sys2Proof.Machine

theorem exec_jmp_unwritten {a : Reg} {s : State} (ha : s.reg a = .unwritten) :
    exec (.jmp a) s = .next (s.raise (.uninitialisedRegister a)) := by
  simp [exec, execJmp, branchIf, State.readReg_unwritten ha]

theorem exec_jmp_val {a : Reg} {s : State} {t : Byte} (ha : s.reg a = .val t) :
    exec (.jmp a) s = .next (s.jump t) := by
  simp [exec, execJmp, branchIf, State.readReg_val ha]

/-- The step after a jump to an `Unwritten` cell takes the error of its opcode read: a target is a byte, so no range
error comes before it (R35, R37, R68). -/
theorem step_jump_unwritten {s : State} {t : Byte} (hs : Enabled s) (ht : s.mem.read t.toNat = none) :
    step (s.jump t) = .next ((s.jump t).raise (.uninitialisedMemory t.toNat)) := by
  obtain ⟨hrunning, hfault⟩ := hs
  have hread : (s.jump t).memRead t.toNat = .error (.uninitialisedMemory t.toNat) :=
    State.memRead_unwritten (Nat.le_of_lt_succ t.isLt) ht
  exact step_raise hrunning hfault (fetch_error hread)

end Sys2Proof.Machine

namespace Sys2Proof

open Machine

/-- Settles O32: JMP's outcomes per state of Ra's cell; the jump keeps the fault, and the step after it is
`step_jump_unwritten`. -/
theorem jmpJumps : Obligations.JmpJumps := by
  refine ⟨fun _ => rfl, fun a s => ⟨exec_jmp_unwritten, fun t ha => ?_, fun t ha hs ht => ?_⟩⟩
  · exact ⟨Nat.le_of_lt_succ t.isLt, exec_jmp_val ha⟩
  · exact ⟨s.jump t, exec_jmp_val ha, hs.2, step_jump_unwritten hs ht⟩

end Sys2Proof
end

section
/-! The laws of PUSH with POP and of CALL with RET (R110). -/

namespace Sys2Proof.Machine

/-! ### Register writes that change nothing, or keep a register written -/

/-- Writing a register the value it holds changes nothing. -/
theorem State.writeReg_self {s : State} {r : Reg} {v : Byte} (h : s.reg r = .val v) : s.writeReg r v = s := by
  rw [State.writeReg, ← h, State.reg]
  simp

theorem State.regs_set_self {s : State} {r : Reg} {v : Byte} (h : s.reg r = .val v) : s.regs.set r (.val v) = s.regs :=
  congrArg State.regs (State.writeReg_self h)

/-- A register that holds a value holds one after any register write (R17). -/
theorem State.writeReg_reg_isVal {s : State} {a : Reg} {v : Byte} (h : s.reg a = .val v) (r : Reg) (x : Byte) :
    ∃ w, (s.writeReg r x).reg a = .val w := by
  rw [State.writeReg_reg]
  split
  · exact ⟨x, rfl⟩
  · exact ⟨v, h⟩

/-! ### The stack pointer: a decrement, and the increment that undoes it (R19) -/

theorem decSp_writes {s : State} {sp : Byte} (h : s.reg Config.spReg = .val sp) :
    ∃ q : Byte, q.toNat = (sp.toNat + 255) % 256 ∧ decSp s = .ok (s.writeReg Config.spReg q) :=
  ⟨_, spDec_toNat sp, decSp_val h⟩

/-- Where SP holds the decrement of `sp`, its increment is `sp` again, the wrap at 0 included. -/
theorem incSp_of_decremented {s : State} {sp q : Byte} (hq : q.toNat = (sp.toNat + 255) % 256)
    (h : s.reg Config.spReg = .val q) : incSp s = .ok (s.writeReg Config.spReg sp) := by
  have hinc : BitVec.ofNat 8 (q.toNat + 1) = sp := by
    apply BitVec.eq_of_toNat_eq
    have := sp.isLt
    rw [spInc_toNat]
    omega
  rw [incSp_val h, hinc]

/-! ### The stack instructions that raise no error: their outcome, from their parts' values (R106 to R109) -/

theorem exec_push_val {a : Reg} {s s1 : State} {q v : Byte} (h1 : decSp s = .ok s1)
    (hq : s1.reg Config.spReg = .val q) (hv : s1.reg a = .val v) :
    exec (.push a) s = .next ((s1.writeMem q.toNat v).advance 2) := by
  simp [exec, execPush, h1, State.readReg_val hv, storeAtSp_val v hq]

theorem exec_pop_val {a : Reg} {s s1 : State} {sp v : Byte} (hsp : s.reg Config.spReg = .val sp)
    (hm : s.mem.read sp.toNat = some v) (h1 : incSp (s.writeReg a v) = .ok s1) :
    exec (.pop a) s = .next (s1.advance 2) := by
  simp [exec, execPop, loadAtSp_val hsp hm, h1]

/-- A POP that finds at SP the very value Ra holds, R7 or not, only undoes a decrement of SP. -/
theorem exec_pop_own_value {a : Reg} {s : State} {sp q v : Byte} (hq : q.toNat = (sp.toNat + 255) % 256)
    (hsp : s.reg Config.spReg = .val q) (ha : s.reg a = .val v) (hm : s.mem.read q.toNat = some v) :
    exec (.pop a) s = .next ((s.writeReg Config.spReg sp).advance 2) := by
  refine exec_pop_val hsp hm ?_
  rw [State.writeReg_self ha]
  exact incSp_of_decremented hq hsp

theorem exec_call_val {a : Reg} {s s1 : State} {q v : Byte} (hpc : s.pc + 2 ≤ 255) (h1 : decSp s = .ok s1)
    (hq : s1.reg Config.spReg = .val q) (hv : s1.reg a = .val v) :
    exec (.call a) s = .next ((s1.writeMem q.toNat (BitVec.ofNat 8 (s.pc + 2))).jump v) := by
  have hv' : (s1.writeMem q.toNat (BitVec.ofNat 8 (s.pc + 2))).readReg a = .ok v := State.readReg_val hv
  simp [exec, execCall, Nat.not_lt.2 hpc, h1, storeAtSp_val _ hq, hv']

theorem exec_ret_val {s s1 : State} {sp v : Byte} (hsp : s.reg Config.spReg = .val sp)
    (hm : s.mem.read sp.toNat = some v) (h1 : incSp s = .ok s1) : exec .ret s = .next (s1.jump v) := by
  simp [exec, execRet, loadAtSp_val hsp hm, h1]

end Sys2Proof.Machine

namespace Sys2Proof

open Machine

/-- Settles O39: PUSH stores the value Ra has after the decrement, so POP writes Ra the value it already holds, for R7
too, and its increment undoes the decrement. -/
theorem pushThenPopRestores : Obligations.PushThenPopRestores := by
  intro a s v sp ha hsp
  obtain ⟨q, hq, hdec⟩ := decSp_writes hsp
  obtain ⟨w, hw⟩ := State.writeReg_reg_isVal ha Config.spReg q
  have hsp1 : (s.writeReg Config.spReg q).reg Config.spReg = .val q := State.writeReg_reg_same s _ q
  have hstored : (s.mem.write q.toNat w).read q.toNat = some w := Memory.read_write_same s.mem q.toNat w
  refine ⟨_, _, exec_push_val hdec hsp1 hw, exec_pop_own_value hq hsp1 hw hstored, ?_, rfl, rfl, rfl, rfl, rfl⟩
  calc ((s.regs.set Config.spReg (.val q)).set Config.spReg (.val sp))
    _ = s.regs.set Config.spReg (.val sp) := Vector.set_set ..
    _ = s.regs := State.regs_set_self hsp

/-- Settles O40: CALL leaves SP decremented and the return address in the cell there, so a RET that finds both reads
that address back, and its increment undoes the decrement. -/
theorem callThenRetResumes : Obligations.CallThenRetResumes := by
  intro a s t sp v u hpc hsp ha hcall hspu hmemu
  obtain ⟨q, hq, hdec⟩ := decSp_writes hsp
  obtain ⟨w, hw⟩ := State.writeReg_reg_isVal ha Config.spReg q
  have hsp1 : (s.writeReg Config.spReg q).reg Config.spReg = .val q := State.writeReg_reg_same s _ q
  rw [exec_call_val hpc hdec hsp1 hw] at hcall
  cases hcall
  have hspu' : u.reg Config.spReg = .val q := hspu.trans hsp1
  have hread : u.mem.read q.toNat = some (BitVec.ofNat 8 (s.pc + 2)) :=
    (hmemu q hsp1).trans (Memory.read_write_same s.mem q.toNat _)
  have hret : (BitVec.ofNat 8 (s.pc + 2)).toNat = s.pc + 2 :=
    Nat.mod_eq_of_lt (Nat.lt_succ_of_le hpc)
  exact ⟨_, exec_ret_val hspu' hread (incSp_of_decremented hq hspu'), hret, State.writeReg_reg_same u _ sp, rfl⟩

end Sys2Proof
end

section
/-! The statements about encoding and decoding (R51 to R55, R62, R65): a row of the table, an instruction it builds and
the operand bytes that instruction is written with, related once; decoding and encoding are read off that relation. -/

namespace Sys2Proof

/-! ### What a row builds from which operand bytes -/

/-- The instructions a row builds, each with the operand bytes it is built from. -/
inductive Row.Builds : Row → Instr → OperandBytes → Prop
  | n (i : Instr) : Builds (.n i) i .n
  | r (mk : Reg → Instr) (a : Reg) : Builds (.r mk) (mk a) (.r (regByte a))
  | rr (mk : Reg → Reg → Instr) (a b : Reg) : Builds (.rr mk) (mk a b) (.rr (regByte a) (regByte b))
  | ri (mk : Reg → Byte → Instr) (a : Reg) (imm : Byte) : Builds (.ri mk) (mk a imm) (.ri (regByte a) imm)

/-- Every instruction is built by the row of its mnemonic, from the operand bytes it is written with. -/
theorem rowOf_builds (i : Instr) : (rowOf i.mnemonic).Builds i i.operandBytes := by
  cases i with
  | hlt | nop | ret => exact .n _
  | ldi a imm => exact .ri _ a imm
  | prn a | not a | jmp a | jeq a | jne a | push a | pop a | call a => exact .r _ a
  | add a b | sub a b | mul a b | and a b | or a b | xor a b | shl a b | shr a b | mod a b | cmp a b => exact .rr _ a b

/-- The row of a mnemonic builds instructions of that mnemonic only, from the operand bytes they are written with. -/
theorem Row.Builds.eq {m : Mnemonic} {i : Instr} {o : OperandBytes} (h : (rowOf m).Builds i o) :
    i.mnemonic = m ∧ i.operandBytes = o := by
  cases m <;> cases h <;> exact ⟨rfl, rfl⟩

/-- Operand bytes written from register numbers are well formed (R57). -/
theorem Row.Builds.wellFormed {row : Row} {i : Instr} {o : OperandBytes} (h : row.Builds i o) : o.wellFormed = true := by
  cases h with
  | n => rfl
  | r mk a => exact Laws.EncodedForm.one a
  | rr mk a b => exact Laws.EncodedForm.two a b
  | ri mk a imm => exact Laws.EncodedForm.one a

/-- A row's width counts the opcode and the operand bytes (R51). -/
theorem Row.Builds.width {row : Row} {i : Instr} {o : OperandBytes} (h : row.Builds i o) :
    row.width = o.bytes.length + 1 := by
  cases h <;> rfl

theorem Instr.wellFormed_eq_true (i : Instr) : i.wellFormed = true := (rowOf_builds i).wellFormed

theorem encodeWith_length (map : Mnemonic → Byte) (i : Instr) : (encodeWith map i).length = widthOf i.mnemonic :=
  (rowOf_builds i).width.symm

/-! ### Operand reads -/

/-- The operand bytes `o` stand after the opcode at `addr`. -/
def ReadsOperands {ε : Type} (rd : Nat → Except ε Byte) (addr : Nat) (o : OperandBytes) : Prop :=
  ∀ k b, o.bytes[k]? = some b → rd (addr + 1 + k) = .ok b

/-- The operand reads of a row give the instruction it builds from the bytes that stand there. -/
theorem readOperands_of_builds {ε : Type} {rd : Nat → Except ε Byte} (bad : Illegal → ε) {addr : Nat} {row : Row}
    {i : Instr} {o : OperandBytes} (h : row.Builds i o) (hrd : ReadsOperands rd addr o) :
    readOperands rd bad addr row = .ok i := by
  cases h with
  | n => rfl
  | r mk a =>
    have ha : rd (addr + 1) = .ok (regByte a) := hrd 0 _ rfl
    simp [readOperands, ha]
  | rr mk a b =>
    have ha : rd (addr + 1) = .ok (regByte a) := hrd 0 _ rfl
    have hb : rd (addr + 2) = .ok (regByte b) := hrd 1 _ rfl
    simp [readOperands, ha, hb]
  | ri mk a imm =>
    have ha : rd (addr + 1) = .ok (regByte a) := hrd 0 _ rfl
    have himm : rd (addr + 2) = .ok imm := hrd 1 _ rfl
    simp [readOperands, ha, himm]

theorem readsOperands_one {ε : Type} {rd : Nat → Except ε Byte} {addr : Nat} {a : Byte} (ha : rd (addr + 1) = .ok a) :
    ReadsOperands rd addr (.r a)
  | 0, _, h => by cases h; exact ha

theorem readsOperands_two {ε : Type} {rd : Nat → Except ε Byte} {addr : Nat} {o : OperandBytes} {a b : Byte}
    (ho : o.bytes = [a, b]) (ha : rd (addr + 1) = .ok a) (hb : rd (addr + 2) = .ok b) : ReadsOperands rd addr o := by
  intro k c h
  rw [ho] at h
  match k, h with
  | 0, h => cases h; exact ha
  | 1, h => cases h; exact hb

/-- What a row built, it built from operand bytes that stand there. -/
theorem builds_of_readOperands {ε : Type} {rd : Nat → Except ε Byte} {bad : Illegal → ε} {addr : Nat} {row : Row}
    {i : Instr} (h : readOperands rd bad addr row = .ok i) : ∃ o, row.Builds i o ∧ ReadsOperands rd addr o := by
  obtain rfl | ⟨mk, a, rfl, ha, rfl⟩ | ⟨mk, a, b, rfl, ha, hb, rfl⟩ | ⟨mk, a, imm, rfl, ha, himm, rfl⟩ :=
    readOperands_ok h
  · exact ⟨_, .n i, nofun⟩
  · exact ⟨_, .r mk a, readsOperands_one ha⟩
  · exact ⟨_, .rr mk a b, readsOperands_two rfl ha hb⟩
  · exact ⟨_, .ri mk a imm, readsOperands_two rfl ha himm⟩

/-! ### The decoder on a reader and on a list of bytes -/

/-- An instruction read has its opcode at `addr` and its operand bytes after it. -/
theorem readInstr_ok {ε : Type} {map : Mnemonic → Byte} {rd : Nat → Except ε Byte} {bad : Illegal → ε} {addr : Nat}
    {i : Instr} (h : readInstr map rd bad addr = .ok i) :
    rd addr = .ok (map i.mnemonic) ∧ ReadsOperands rd addr i.operandBytes := by
  obtain ⟨op, hop, h⟩ := Machine.bind_ok h
  cases hm : decodeOpWith map op with
  | none => rw [hm] at h; cases h
  | some m =>
    rw [hm] at h
    obtain ⟨o, hb, hrd⟩ := builds_of_readOperands h
    obtain ⟨rfl, rfl⟩ := hb.eq
    exact ⟨decodeOpWith_some hm ▸ hop, hrd⟩

/-- Under a table with distinct opcodes, an opcode followed by its operand bytes reads as the instruction. -/
theorem readInstr_of_reads {ε : Type} {map : Mnemonic → Byte} (hmap : Function.Injective map)
    {rd : Nat → Except ε Byte} (bad : Illegal → ε) {addr : Nat} {i : Instr} (hop : rd addr = .ok (map i.mnemonic))
    (hrd : ReadsOperands rd addr i.operandBytes) : readInstr map rd bad addr = .ok i := by
  simp [readInstr, hop, decodeOpWith_map hmap, readOperands_of_builds bad (rowOf_builds i) hrd]

theorem byteAt_eq_ok_iff {bs : List Byte} {k : Nat} {b : Byte} : byteAt bs k = .ok b ↔ bs[k]? = some b :=
  ⟨byteAt_ok, fun h => by simp [byteAt, h]⟩

/-- A list whose elements begin with those of another has it as its beginning. -/
theorem eq_append_drop_of_getElem? {l bs : List Byte} (h : ∀ (k : Nat) b, l[k]? = some b → bs[k]? = some b) :
    bs = l ++ bs.drop l.length := by
  have hpre : l <+: bs := List.prefix_iff_getElem?.2 fun k hk => h k _ (List.getElem?_eq_getElem hk)
  rw [List.prefix_iff_eq_append.1 hpre]

/-- The opcode and the operand bytes read from a list are the beginning of that list. -/
theorem getElem?_encodeWith {map : Mnemonic → Byte} {bs : List Byte} {i : Instr}
    (hop : byteAt bs 0 = .ok (map i.mnemonic)) (hrd : ReadsOperands (byteAt bs) 0 i.operandBytes) :
    ∀ (k : Nat) b, (encodeWith map i)[k]? = some b → bs[k]? = some b
  | 0, _, h => by cases h; exact byteAt_ok hop
  | k + 1, b, h => by
    have := byteAt_ok (hrd k b h)
    rwa [Nat.zero_add, Nat.add_comm] at this

/-- Bytes that decode begin with the encoding of the decoded instruction; the rest are those after it. -/
theorem decodeWith_ok {map : Mnemonic → Byte} {bs : List Byte} {i : Instr} {rest : List Byte}
    (h : decodeWith map bs = .ok (i, rest)) : bs = encodeWith map i ++ rest := by
  obtain ⟨j, hj, h⟩ := Machine.bind_ok h
  cases h
  obtain ⟨hop, hrd⟩ := readInstr_ok hj
  rw [← encodeWith_length map]
  exact eq_append_drop_of_getElem? (getElem?_encodeWith hop hrd)

/-- Settles O4: the bytes of an instruction read back as it (`readInstr_of_reads`), and they are as many as its width. -/
theorem decodeOfEncode : Obligations.DecodeOfEncode := by
  intro map hmap i rest
  have hread : readInstr map (byteAt (encodeWith map i ++ rest)) .illegal 0 = .ok i := by
    refine readInstr_of_reads hmap _ rfl fun k b hb => ?_
    obtain ⟨hk, -⟩ := List.getElem?_eq_some_iff.1 hb
    rw [byteAt_eq_ok_iff, Nat.zero_add, Nat.add_comm]
    exact (List.getElem?_append_left hk).trans hb
  have hdrop : (encodeWith map i ++ rest).drop (widthOf i.mnemonic) = rest := by
    rw [← encodeWith_length map, List.drop_left]
  simp [decodeWith, hread, hdrop]

/-- Settles O5: by `decodeWith_ok`; the operand bytes of every instruction are well formed. -/
theorem encodeOfDecode : Obligations.EncodeOfDecode :=
  fun _ _ i _ h => ⟨decodeWith_ok h, i.wellFormed_eq_true⟩

/-! ### The table under `OPCODE_MAP` -/

/-- Settles O1: the table's columns, computed; distinctness is `opcodeMap_injective`. -/
theorem opcodeTableValues : Obligations.OpcodeTableValues := by
  refine ⟨rfl, rfl, rfl, mem_mnemonics, ?_, ?_, ?_⟩
  · exact List.Nodup.map opcodeMap_injective (by decide)
  · decide +kernel
  · decide

/-- Settles O2: each word decoded by the model. -/
theorem writtenWordsDecode : Obligations.WrittenWordsDecode :=
  ⟨rfl, rfl, rfl, rfl, rfl, rfl, rfl, rfl, rfl, rfl⟩

/-- Settles O3: row by row of the table. -/
theorem opcodeLayoutAgreesWithWidth : Obligations.OpcodeLayoutAgreesWithWidth := by
  intro m
  cases m <;> decide

end Sys2Proof
end

section
/-! The statements about the fetch of an instruction: its errors, the order of its reads and checks, and the bytes at the
pc against the list decoder (R67 to R71). -/

namespace Sys2Proof

open Machine Claims

/-! ### The bytes at the pc -/

/-- The fetch reads what the list decoder reads, where the bytes of the list stand at the pc. -/
theorem fetch_of_decode {s : State} {bs : List Byte} {i : Instr} {rest : List Byte}
    (hbs : ∀ (k : Nat) b, bs[k]? = some b → s.memRead (s.pc + k) = .ok b) (h : decode bs = .ok (i, rest)) :
    fetch s = .ok i := by
  obtain rfl := decodeWith_ok h
  have henc : ∀ (k : Nat) b, (encode i)[k]? = some b → s.memRead (s.pc + k) = .ok b := by
    intro k b hb
    obtain ⟨hk, -⟩ := List.getElem?_eq_some_iff.1 hb
    exact hbs k b ((List.getElem?_append_left hk).trans hb)
  refine readInstr_of_reads opcodeMap_injective _ (henc 0 _ rfl) fun k b hb => ?_
  rw [Nat.add_assoc, Nat.add_comm 1]
  exact henc (k + 1) b hb

/-- Settles O8: the fetch answers the decoded instruction (`fetch_of_decode`), and the step runs it. -/
theorem stepRunsDecodedInstruction : Obligations.StepRunsDecodedInstruction := by
  rintro s bs i rest ⟨hrunning, hfault⟩ hbs h
  exact ⟨i.wellFormed_eq_true, step_exec hrunning hfault (fetch_of_decode hbs h)⟩

/-- Settles O9: the error of the opcode read is that of the fetch, and the step takes it. -/
theorem fetchErrors : Obligations.FetchErrors := by
  rintro s ⟨hrunning, hfault⟩
  refine ⟨fun hpc => ?_, fun hpc hread => ?_⟩
  · exact step_raise hrunning hfault (fetch_error (State.memRead_outOfRange hpc))
  · exact step_raise hrunning hfault (fetch_error (State.memRead_unwritten hpc hread))

/-! ### The order of the operand reads and the register checks -/

/-- A fetch that goes on with a memory read makes that read's checks. -/
theorem readsThen_of_fetch {s : State} (hs : Enabled s) {addr : Nat} {f : Byte → Result Instr} {ok : Byte → Prop}
    (hfetch : fetch s = s.memRead addr >>= f) (hok : ∀ b, fetch s = f b → ok b) : ReadsThen s addr ok := by
  obtain ⟨hrunning, hfault⟩ := hs
  refine ⟨fun h => ?_, fun h hr => ?_, fun b h hr => hok b ?_⟩
  · exact step_raise hrunning hfault (by rw [hfetch, State.memRead_outOfRange h, error_bind])
  · exact step_raise hrunning hfault (by rw [hfetch, State.memRead_unwritten h hr, error_bind])
  · rw [hfetch, State.memRead_some h hr, ok_bind]

/-- A fetch that goes on with a register check takes that check's error. -/
theorem checksThen_of_fetch {s : State} (hs : Enabled s) {b : Byte} {f : Reg → Result Instr} {ok : Reg → Prop}
    (hfetch : fetch s = (regField b).mapError illegalError >>= f) (hok : ∀ r, fetch s = f r → ok r) :
    ChecksThen s b ok := by
  obtain ⟨hrunning, hfault⟩ := hs
  refine ⟨fun h => ?_, fun r h => hok r ?_⟩
  · exact step_raise hrunning hfault (by rw [hfetch, regField_gt h, error_mapError, error_bind]; rfl)
  · rw [hfetch, regField_lt h, ok_mapError, ok_bind]

/-- Settles O10: the fetch is the reads and checks of the opcode's row one after the other, each by `readsThen_of_fetch`
or `checksThen_of_fetch`. -/
theorem operandReadsThenRegisterChecks : Obligations.OperandReadsThenRegisterChecks := by
  rintro s _ m hs hop rfl
  have hexec : ∀ i, fetch s = .ok i → step s = exec i s := fun i => step_exec hs.1 hs.2
  have hfetch := fetch_row hop
  cases hrow : rowOf m <;> rw [hrow] at hfetch
  case n i => exact hexec i hfetch
  case r mk =>
    refine readsThen_of_fetch hs hfetch fun a hfetch => ?_
    exact checksThen_of_fetch hs hfetch fun ra => hexec _
  case rr mk =>
    refine readsThen_of_fetch hs hfetch fun a hfetch => readsThen_of_fetch hs hfetch fun b hfetch => ?_
    exact checksThen_of_fetch hs hfetch fun ra hfetch => checksThen_of_fetch hs hfetch fun rb => hexec _
  case ri mk =>
    refine readsThen_of_fetch hs hfetch fun a hfetch => readsThen_of_fetch hs hfetch fun imm hfetch => ?_
    exact checksThen_of_fetch hs hfetch fun ra => hexec _

/-! ### A word placed at the pc -/

theorem poke_le {s : State} {addr : Nat} (v : Byte) (h : addr ≤ 255) : s.poke addr v = s.writeMem addr v := by
  simp [State.poke, Nat.not_lt.2 h]

/-- Where three bytes fit, the host's word is written at the pc and the two addresses after it. -/
theorem withFetchWord_eq {s : State} (nbits w : Nat) (h : s.pc ≤ 253) : ∃ b0 b1 b2, wordBytes nbits w = [b0, b1, b2] ∧
    s.withFetchWord nbits w = ((s.writeMem s.pc b0).writeMem (s.pc + 1) b1).writeMem (s.pc + 2) b2 := by
  refine ⟨_, _, _, rfl, ?_⟩
  simp only [State.withFetchWord, wordBytes]
  rw [poke_le _ (by omega), poke_le _ (by omega), poke_le _ (by omega)]

/-- The three bytes written are read back. -/
theorem memRead_three_writes (s : State) (b0 b1 b2 : Byte) (h : s.pc ≤ 253) (k : Nat) (b : Byte)
    (hb : [b0, b1, b2][k]? = some b) :
    (((s.writeMem s.pc b0).writeMem (s.pc + 1) b1).writeMem (s.pc + 2) b2).memRead (s.pc + k) = .ok b := by
  match k, hb with
  | 0, hb => cases hb; exact State.memRead_some (by omega) (by simp [Memory.read_write])
  | 1, hb => cases hb; exact State.memRead_some (by omega) (by simp [Memory.read_write])
  | 2, hb => cases hb; exact State.memRead_some (by omega) (by simp [Memory.read_write])

theorem decodeTableWord_some {nbits w : Nat} {i : Instr} (h : decodeTableWord nbits w = some i) :
    ∃ rest, decode (wordBytes nbits w) = .ok (i, rest) := by
  simp only [decodeTableWord] at h
  split at h
  · next j rest hd => cases h; exact ⟨rest, hd⟩
  · cases h

/-- Settles O60: the word's bytes stand at the pc, so the fetch answers what they decode to. -/
theorem placedWordRuns : Obligations.PlacedWordRuns := by
  rintro s nbits w i ⟨hrunning, hfault⟩ hpc h
  obtain ⟨rest, hd⟩ := decodeTableWord_some h
  obtain ⟨b0, b1, b2, hbytes, heq⟩ := withFetchWord_eq nbits w hpc
  rw [hbytes] at hd
  rw [heq]
  exact step_exec hrunning hfault (fetch_of_decode (memRead_three_writes s b0 b1 b2 hpc) hd)

end Sys2Proof
end

section
/-! The statements about steps and runs: where a step is enabled, what an error leaves, and the run loop (R29, R66, R74,
R75, R101, R114). -/

namespace Sys2Proof.Machine

/-! ### Where a step is enabled -/

theorem complete_total (s : State) (r : Result State) : ∃ t, complete s r = .next t := by
  cases r with
  | ok t => exact ⟨t, rfl⟩
  | error e => exact ⟨s.raise e, rfl⟩

/-- Every meaning ends by `complete`, which always answers a next state. -/
theorem exec_total (i : Instr) (s : State) : ∃ t, exec i s = .next t := by
  cases i with
  | hlt | ldi | nop => exact ⟨_, rfl⟩
  | _ => exact complete_total s _

theorem step_of_enabled {s : State} (h : Enabled s) : ∃ t, step s = .next t := by
  obtain ⟨hrunning, hfault⟩ := h
  cases hf : fetch s with
  | ok i => rw [step_exec hrunning hfault hf]; exact exec_total i s
  | error e => exact ⟨_, step_raise hrunning hfault hf⟩

theorem exists_step_iff_enabled {s : State} : (∃ t, step s = .next t) ↔ Enabled s :=
  ⟨fun ⟨_, h⟩ => ⟨(step_next h).1, (step_next h).2.1⟩, step_of_enabled⟩

theorem step_of_fault {s : State} {r : FaultRecord} (h : s.fault = some r) : step s = .fault (.aborted r) := by
  simp [step, h]

theorem step_of_halted {s : State} (hr : s.running = false) (hf : s.fault = none) : step s = .fault .halted := by
  simp [step, hr, hf]

theorem step_ne_next_of_fault {s : State} {r : FaultRecord} (h : s.fault = some r) (u : State) : step s ≠ .next u := by
  rw [step_of_fault h]
  exact nofun

/-! ### The frame of the fault record -/

@[simp] theorem State.divideByZeroHalt_fault (s : State) (a b : Reg) : (s.divideByZeroHalt a b).fault = s.fault := by
  unfold State.divideByZeroHalt
  split <;> rfl

/-- No effect records a fault: only raising an error does (R114). -/
theorem Effect.fault_eq {i : Instr} {s t : State} (h : Effect i s t) : t.fault = s.fault := by
  cases i with
  | hlt | ldi | nop => cases h; rfl
  | prn | not | jmp => obtain ⟨v, -, rfl⟩ := h; rfl
  | add | sub | mul | and | or | xor | shl | shr | cmp => obtain ⟨va, vb, -, -, rfl⟩ := h; rfl
  | mod a b => obtain ⟨va, vb, -, -, ⟨-, rfl⟩ | ⟨-, rfl⟩⟩ := h <;> simp
  | jeq | jne => obtain ⟨e, l, g, -, ⟨-, v, -, rfl⟩ | ⟨-, rfl⟩⟩ := h <;> rfl
  | push a => obtain ⟨s1, sp, v, h1, -, -, rfl⟩ := h; obtain ⟨q, -, rfl⟩ := decSp_ok h1; rfl
  | call a => obtain ⟨-, s1, sp, v, h1, -, -, rfl⟩ := h; obtain ⟨q, -, rfl⟩ := decSp_ok h1; rfl
  | pop | ret => obtain ⟨sp, v, s1, -, -, h1, rfl⟩ := h; obtain ⟨q, -, rfl⟩ := incSp_ok h1; rfl

/-- A step takes an error from the state it started in, or has the effect of the instruction it fetched. -/
theorem step_cases {s t : State} (h : step s = .next t) :
    Enabled s ∧ ((∃ e, t = s.raise e) ∨ ∃ i, fetch s = .ok i ∧ Effect i s t) := by
  obtain ⟨hrunning, hfault, ⟨e, -, rfl⟩ | ⟨i, hf, hi⟩⟩ := step_next h
  · exact ⟨⟨hrunning, hfault⟩, .inl ⟨e, rfl⟩⟩
  · exact ⟨⟨hrunning, hfault⟩, (exec_next hi).imp_right fun he => ⟨i, hf, he⟩⟩

/-! ### The run loop -/

theorem runFor_succ_of_step {s t : State} (h : step s = .next t) (n : Nat) : runFor (n + 1) s = runFor n t := by
  simp [runFor, h]

theorem runFor_of_no_step {s : State} (h : ∀ t, step s ≠ .next t) (n : Nat) : runFor n s = s := by
  cases n with
  | zero => rfl
  | succ n =>
    unfold runFor
    split
    · next t ht => exact absurd ht (h t)
    · rfl

/-- A run is a step and then a run, or has no step. -/
theorem Reaches.head {s t u : State} (h : step s = .next t) (hu : Reaches t u) : Reaches s u := by
  induction hu with
  | refl => exact .tail .refl h
  | tail _ hstep ih => exact .tail ih hstep

theorem reaches_runFor (n : Nat) (s : State) : Reaches s (runFor n s) := by
  induction n generalizing s with
  | zero => exact .refl
  | succ n ih =>
    by_cases h : ∃ t, step s = .next t
    · obtain ⟨t, ht⟩ := h
      rw [runFor_succ_of_step ht]
      exact .head ht (ih t)
    · rw [runFor_of_no_step (not_exists.1 h)]
      exact .refl

/-- One more turn of the loop is one more step at its end, where there is one. -/
theorem runFor_succ_last {s t u : State} {n : Nat} (h : runFor n s = t) (hu : step t = .next u) :
    runFor (n + 1) s = u := by
  induction n generalizing s with
  | zero => cases h; exact runFor_succ_of_step hu 0
  | succ n ih =>
    by_cases hs : ∃ v, step s = .next v
    · obtain ⟨v, hv⟩ := hs
      rw [runFor_succ_of_step hv] at h ⊢
      exact ih h
    · rw [runFor_of_no_step (not_exists.1 hs)] at h
      subst h
      exact absurd ⟨u, hu⟩ hs

theorem reaches_iff_runFor {s t : State} : Reaches s t ↔ ∃ n, runFor n s = t := by
  constructor
  · intro h
    induction h with
    | refl => exact ⟨0, rfl⟩
    | tail _ hu ih =>
      obtain ⟨n, hn⟩ := ih
      exact ⟨n + 1, runFor_succ_last hn hu⟩
  · rintro ⟨n, rfl⟩
    exact reaches_runFor n s

/-- What every step keeps, every run keeps. -/
theorem Reaches.keeps {P : State → Prop} (hP : ∀ s t, P s → step s = .next t → P t) {s t : State} (h : Reaches s t)
    (hs : P s) : P t := by
  induction h with
  | refl => exact hs
  | tail _ hu ih => exact hP _ _ ih hu

/-- A state that steps to itself is all the loop passes through. -/
theorem runFor_of_step_self {s : State} (h : step s = .next s) (n : Nat) : runFor n s = s := by
  induction n with
  | zero => rfl
  | succ n ih => rw [runFor_succ_of_step h, ih]

/-- The fetch of an instruction with one register operand. -/
theorem fetch_one_register {s : State} {m : Mnemonic} {mk : Reg → Instr} {a : Reg} {b : Byte} (hm : rowOf m = .r mk)
    (hop : s.memRead s.pc = .ok (opcodeMap m)) (hb : s.memRead (s.pc + 1) = .ok b) (hab : a.val = b.toNat) :
    fetch s = .ok (mk a) := by
  simp [fetch_row hop, hm, readOperands, hb, regField_lt hab]

end Sys2Proof.Machine

namespace Sys2Proof

open Machine

/-- Settles O11: `exists_step_iff_enabled`. -/
theorem stepEnabledExactly : Obligations.StepEnabledExactly :=
  fun _ => exists_step_iff_enabled

/-- Settles O12: an effect keeps the fault record, so a step that records one raised it, and no step follows. -/
theorem fatalErrorIsPrecise : Obligations.FatalErrorIsPrecise := by
  intro s t r h ht
  obtain ⟨⟨hrunning, hfault⟩, ⟨e, rfl⟩ | ⟨i, -, he⟩⟩ := step_cases h
  · cases ht
    exact ⟨rfl, rfl, hrunning, step_ne_next_of_fault rfl⟩
  · rw [he.fault_eq, hfault] at ht
    cases ht

/-- Settles O13: a start state differs from the state after reset in memory only, and a faulted state has no step. -/
theorem faultIsFinal : Obligations.FaultIsFinal := by
  refine ⟨fun p s h => ?_, State.raise_fault, fun s r h => ?_⟩
  · obtain ⟨m, rfl⟩ := load_ok h
    rfl
  · exact ⟨step_ne_next_of_fault h, fun t ht => ht.eq_of_no_step (step_ne_next_of_fault h)⟩

/-- Settles O15: the loop's turns are the steps of the run. -/
theorem runLoopRepeatsStep : Obligations.RunLoopRepeatsStep :=
  ⟨fun _ _ => reaches_iff_runFor, fun _ _ n h => runFor_succ_of_step h n, fun _ n h => runFor_of_no_step h n⟩

/-- Settles O41: the JMP sets the pc to the value it has, so it steps to the state it started from. -/
theorem jumpToSelfNeverEnds : Obligations.JumpToSelfNeverEnds := by
  rintro s a b v ⟨hrunning, hfault⟩ hop hb hab ha hv n
  have hself : s.jump v = s := by rw [State.jump, hv]
  have hstep : step s = .next s := by
    rw [step_exec hrunning hfault (fetch_one_register rfl hop hb hab.symm), exec_jmp_val ha, hself]
  rw [runFor_of_step_self hstep]
  exact ⟨rfl, s, hstep⟩

end Sys2Proof
end

section
/-! The statements about what an instruction changes and leaves unchanged (R12, R30, R40, R73, R114), and what follows
for registers, memory and events along a run (R17, R35 to R37, R46, R49). -/

namespace Sys2Proof.Machine

/-! ### The frame of the registers -/

/-- Every register outside `ds` is as before, and one of `ds` is as before or holds a value. -/
def WritesOnly (ds : List Reg) (s t : State) : Prop := ∀ r, t.reg r = s.reg r ∨ r ∈ ds ∧ ∃ v, t.reg r = .val v

theorem WritesOnly.of_regs_eq {ds : List Reg} {s t : State} (h : t.regs = s.regs) : WritesOnly ds s t :=
  fun r => .inl (by simp [State.reg, h])

theorem WritesOnly.of_regs_set {s t : State} {a : Reg} {v : Byte} (h : t.regs = s.regs.set a (.val v)) :
    WritesOnly [a] s t := by
  intro r
  have hr : t.reg r = (s.writeReg a v).reg r := by simp [State.reg, h]
  rw [hr, State.writeReg_reg]
  split
  · next e => exact .inr ⟨List.mem_singleton.2 e, v, rfl⟩
  · exact .inl rfl

theorem WritesOnly.trans {ds es : List Reg} {s t u : State} (h : WritesOnly ds s t) (k : WritesOnly es t u) :
    WritesOnly (ds ++ es) s u := by
  intro r
  obtain hu | ⟨hr, hv⟩ := k r
  · rw [hu]
    exact (h r).imp_right fun ⟨hr, hv⟩ => ⟨List.mem_append_left _ hr, hv⟩
  · exact .inr ⟨List.mem_append_right _ hr, hv⟩

theorem WritesOnly.reg_eq {ds : List Reg} {s t : State} (h : WritesOnly ds s t) {r : Reg} (hr : r ∉ ds) :
    t.reg r = s.reg r :=
  (h r).resolve_right fun ⟨hmem, _⟩ => hr hmem

/-- A write gives a register a value, so a written register stays written (R17). -/
theorem WritesOnly.written {ds : List Reg} {s t : State} (h : WritesOnly ds s t) {r : Reg} (hr : s.reg r ≠ .unwritten) :
    t.reg r ≠ .unwritten := by
  obtain ht | ⟨-, v, hv⟩ := h r
  · rwa [ht]
  · simp [hv]

@[simp] theorem State.divideByZeroHalt_regs (s : State) (a b : Reg) : (s.divideByZeroHalt a b).regs = s.regs := by
  unfold State.divideByZeroHalt
  split <;> rfl

/-- An effect writes the registers of its "Writes" column only (R12). -/
theorem Effect.writesOnly {i : Instr} {s t : State} (h : Effect i s t) : WritesOnly (destRegs i) s t := by
  cases i with
  | hlt | nop => cases h; exact .of_regs_eq rfl
  | prn | jmp => obtain ⟨v, -, rfl⟩ := h; exact .of_regs_eq rfl
  | cmp => obtain ⟨va, vb, -, -, rfl⟩ := h; exact .of_regs_eq rfl
  | jeq | jne => obtain ⟨e, l, g, -, ⟨-, v, -, rfl⟩ | ⟨-, rfl⟩⟩ := h <;> exact .of_regs_eq rfl
  | ldi => cases h; exact .of_regs_set rfl
  | not => obtain ⟨va, -, rfl⟩ := h; exact .of_regs_set rfl
  | add | sub | mul | and | or | xor | shl | shr => obtain ⟨va, vb, -, -, rfl⟩ := h; exact .of_regs_set rfl
  | mod a b =>
    obtain ⟨va, vb, -, -, ⟨-, rfl⟩ | ⟨-, rfl⟩⟩ := h
    · exact .of_regs_eq (State.divideByZeroHalt_regs s a b)
    · exact .of_regs_set rfl
  | push a => obtain ⟨s1, sp, v, h1, -, -, rfl⟩ := h; obtain ⟨q, -, rfl⟩ := decSp_ok h1; exact .of_regs_set rfl
  | call a => obtain ⟨-, s1, sp, v, h1, -, -, rfl⟩ := h; obtain ⟨q, -, rfl⟩ := decSp_ok h1; exact .of_regs_set rfl
  | ret => obtain ⟨sp, v, s1, -, -, h1, rfl⟩ := h; obtain ⟨q, -, rfl⟩ := incSp_ok h1; exact .of_regs_set rfl
  | pop a =>
    obtain ⟨sp, v, s1, -, -, h1, rfl⟩ := h
    obtain ⟨q, -, rfl⟩ := incSp_ok h1
    exact (WritesOnly.of_regs_set (t := s.writeReg a v) rfl).trans (.of_regs_set rfl)

/-! ### The frame of memory -/

/-- A byte is stored at the decremented SP. -/
def StoresAtDecrementedSp (s t : State) : Prop :=
  ∃ s1 sp v, decSp s = .ok s1 ∧ s1.reg Config.spReg = .val sp ∧ t.mem = s.mem.write sp.toNat v

theorem decSp_mem {s t : State} (h : decSp s = .ok t) : t.mem = s.mem := by
  obtain ⟨q, -, rfl⟩ := decSp_ok h
  rfl

@[simp] theorem State.divideByZeroHalt_mem (s : State) (a b : Reg) : (s.divideByZeroHalt a b).mem = s.mem := by
  unfold State.divideByZeroHalt
  split <;> rfl

/-- Only PUSH and CALL write memory, each one byte at the decremented SP (R40, R106, R108). -/
theorem Effect.mem_cases {i : Instr} {s t : State} (h : Effect i s t) :
    t.mem = s.mem ∨ (∃ a, i = .push a ∨ i = .call a) ∧ StoresAtDecrementedSp s t := by
  cases i with
  | hlt | ldi | nop => cases h; exact .inl rfl
  | prn | not | jmp => obtain ⟨v, -, rfl⟩ := h; exact .inl rfl
  | add | sub | mul | and | or | xor | shl | shr | cmp => obtain ⟨va, vb, -, -, rfl⟩ := h; exact .inl rfl
  | mod a b => obtain ⟨va, vb, -, -, ⟨-, rfl⟩ | ⟨-, rfl⟩⟩ := h <;> simp
  | jeq | jne => obtain ⟨e, l, g, -, ⟨-, v, -, rfl⟩ | ⟨-, rfl⟩⟩ := h <;> exact .inl rfl
  | pop | ret => obtain ⟨sp, v, s1, -, -, h1, rfl⟩ := h; obtain ⟨q, -, rfl⟩ := incSp_ok h1; exact .inl rfl
  | push a =>
    obtain ⟨s1, sp, v, h1, hsp, -, rfl⟩ := h
    exact .inr ⟨⟨a, .inl rfl⟩, s1, sp, v, h1, hsp, by simp [decSp_mem h1]⟩
  | call a =>
    obtain ⟨-, s1, sp, v, h1, hsp, -, rfl⟩ := h
    exact .inr ⟨⟨a, .inr rfl⟩, s1, sp, BitVec.ofNat 8 (s.pc + 2), h1, hsp, by simp [decSp_mem h1]⟩

/-- A store gives a cell a value, so a written cell stays written (R37). -/
theorem Memory.read_write_ne_none {m : Memory} {q : Nat} (h : m.read q ≠ none) (a : Nat) (v : Byte) :
    (m.write a v).read q ≠ none := by
  rw [Memory.read_write]
  split
  · simp
  · exact h

theorem Effect.mem_written {i : Instr} {s t : State} (h : Effect i s t) {q : Nat} (hq : s.mem.read q ≠ none) :
    t.mem.read q ≠ none := by
  obtain hm | ⟨-, s1, sp, v, -, -, hm⟩ := h.mem_cases
  · rwa [hm]
  · rw [hm]
    exact Memory.read_write_ne_none hq _ _

theorem Effect.mem_wf {i : Instr} {s t : State} (h : Effect i s t) (hs : s.mem.wf) : t.mem.wf := by
  obtain hm | ⟨-, s1, sp, v, -, -, hm⟩ := h.mem_cases
  · rwa [hm]
  · rw [hm]
    exact Memory.wf_write hs sp.isLt v

/-! ### The frame of `running` and the events -/

theorem Effect.running_eq {i : Instr} {s t : State} (h : Effect i s t) (hhlt : i ≠ .hlt) (hmod : ∀ a b, i ≠ .mod a b) :
    t.running = s.running := by
  cases i with
  | cmp => obtain ⟨va, vb, -, -, rfl⟩ := h; rfl
  | _ => exact (h.sameFlagsRunning hhlt hmod nofun).2

@[simp] theorem State.divideByZeroHalt_events (s : State) (a b : Reg) :
    (s.divideByZeroHalt a b).events = s.events ++ [.diag (.divideByZero s.pc a b)] := by
  unfold State.divideByZeroHalt
  split <;> rfl

/-- Only PRN and MOD append an event (R30, R113). -/
theorem Effect.events_eq {i : Instr} {s t : State} (h : Effect i s t) (hprn : ∀ a, i ≠ .prn a)
    (hmod : ∀ a b, i ≠ .mod a b) : t.events = s.events := by
  cases i with
  | prn a => exact absurd rfl (hprn a)
  | mod a b => exact absurd rfl (hmod a b)
  | hlt | ldi | nop => cases h; rfl
  | not | jmp => obtain ⟨v, -, rfl⟩ := h; rfl
  | add | sub | mul | and | or | xor | shl | shr | cmp => obtain ⟨va, vb, -, -, rfl⟩ := h; rfl
  | jeq | jne => obtain ⟨e, l, g, -, ⟨-, v, -, rfl⟩ | ⟨-, rfl⟩⟩ := h <;> rfl
  | push a => obtain ⟨s1, sp, v, h1, -, -, rfl⟩ := h; obtain ⟨q, -, rfl⟩ := decSp_ok h1; rfl
  | call a => obtain ⟨-, s1, sp, v, h1, -, -, rfl⟩ := h; obtain ⟨q, -, rfl⟩ := decSp_ok h1; rfl
  | pop | ret => obtain ⟨sp, v, s1, -, -, h1, rfl⟩ := h; obtain ⟨q, -, rfl⟩ := incSp_ok h1; rfl

/-! ### The pc -/

@[simp] theorem State.divideByZeroHalt_pc (s : State) (a b : Reg) :
    (s.divideByZeroHalt a b).pc = if Config.modZeroAdvancesPc then s.pc + 3 else s.pc := by
  unfold State.divideByZeroHalt
  split <;> rfl

/-- A jump target is a byte: the pc is the register's value. -/
theorem val_eq_ofNat_toNat {c : RegCell} {v : Byte} (h : c = .val v) :
    c = .val (BitVec.ofNat 8 v.toNat) ∧ v.toNat ≤ 255 :=
  ⟨by simp [h], Nat.le_of_lt_succ v.isLt⟩

/-- The pc after an effect: at most the widest advance, or a byte (R27, R73). -/
theorem Effect.pc_le {i : Instr} {s t : State} (h : Effect i s t) : t.pc ≤ s.pc + 3 ∨ t.pc ≤ 255 := by
  have target : ∀ v : Byte, v.toNat ≤ 255 := fun v => Nat.le_of_lt_succ v.isLt
  cases i with
  | hlt | ldi | nop => cases h; left; simp
  | prn | not => obtain ⟨v, -, rfl⟩ := h; left; simp
  | jmp => obtain ⟨v, -, rfl⟩ := h; exact .inr (target v)
  | add | sub | mul | and | or | xor | shl | shr | cmp => obtain ⟨va, vb, -, -, rfl⟩ := h; left; simp
  | mod a b =>
    obtain ⟨va, vb, -, -, ⟨-, rfl⟩ | ⟨-, rfl⟩⟩ := h
    · left; rw [State.divideByZeroHalt_pc]; split <;> omega
    · left; simp
  | jeq | jne =>
    obtain ⟨e, l, g, -, ⟨-, v, -, rfl⟩ | ⟨-, rfl⟩⟩ := h
    · exact .inr (target v)
    · left; simp
  | push a => obtain ⟨s1, sp, v, h1, -, -, rfl⟩ := h; obtain ⟨q, -, rfl⟩ := decSp_ok h1; left; simp
  | pop a => obtain ⟨sp, v, s1, -, -, h1, rfl⟩ := h; obtain ⟨q, -, rfl⟩ := incSp_ok h1; left; simp
  | call a => obtain ⟨-, s1, sp, v, -, -, -, rfl⟩ := h; exact .inr (target v)
  | ret => obtain ⟨sp, v, s1, -, -, -, rfl⟩ := h; exact .inr (target v)

/-! ### A step's frame -/

theorem step_mem_written {s t : State} {q : Nat} (hq : s.mem.read q ≠ none) (h : step s = .next t) :
    t.mem.read q ≠ none := by
  obtain ⟨-, ⟨e, rfl⟩ | ⟨i, -, he⟩⟩ := step_cases h
  · exact hq
  · exact he.mem_written hq

theorem step_reg_written {s t : State} {r : Reg} (hr : s.reg r ≠ .unwritten) (h : step s = .next t) :
    t.reg r ≠ .unwritten := by
  obtain ⟨-, ⟨e, rfl⟩ | ⟨i, -, he⟩⟩ := step_cases h
  · exact hr
  · exact he.writesOnly.written hr

/-! ### A stored byte fetched -/

/-- Any state with the memory of `t` reads at the address in SP the byte that stands there. -/
theorem State.memRead_of_mem_eq {t u : State} {sp v : Byte} (h : t.mem.read sp.toNat = some v) (hu : u.mem = t.mem) :
    u.memRead sp.toNat = .ok v :=
  State.memRead_some (Nat.le_of_lt_succ sp.isLt) (hu ▸ h)

/-- The byte at the pc decides the step of a one-byte instruction, and of a byte that is no opcode. -/
theorem step_of_memRead {u : State} {v : Byte} (hu : Enabled u) (hread : u.memRead u.pc = .ok v) :
    (∀ m j, opcodeMap m = v → rowOf m = .n j → step u = exec j u) ∧
      (v ∉ Config.mnemonics.map opcodeMap → step u = .next (u.raise (.invalidOpcode v))) := by
  obtain ⟨hrunning, hfault⟩ := hu
  refine ⟨?_, fun hv => step_raise hrunning hfault (fetch_invalid hread hv)⟩
  rintro m j rfl hrow
  refine step_exec hrunning hfault ?_
  rw [fetch_row hread, hrow]
  rfl

end Sys2Proof.Machine

namespace Sys2Proof

open Machine

/-- Settles O42: an error keeps all registers and an effect those outside its column (`Effect.writesOnly`); MOD by zero
has one outcome, which keeps all. -/
theorem registerFrame : Obligations.RegisterFrame := by
  intro i s t h
  constructor
  · intro r hr
    obtain ⟨e, rfl⟩ | he := exec_next h
    · rfl
    · exact he.writesOnly.reg_eq hr
  · rintro a b rfl hb
    obtain ⟨e, rfl⟩ | ⟨va, vb, ha, -, -⟩ := exec_next h
    · rfl
    · rw [exec_mod_zero ha hb] at h
      cases h
      exact State.divideByZeroHalt_regs s a b

/-- Settles O44: an error keeps memory, and an effect keeps it or stores at the decremented SP (`Effect.mem_cases`). -/
theorem memoryFrame : Obligations.MemoryFrame := by
  intro i s t h
  obtain ⟨e, rfl⟩ | he := exec_next h
  · exact ⟨fun _ _ _ => rfl, fun _ _ => rfl⟩
  · obtain hm | ⟨⟨a, hi⟩, s1, sp, v, h1, hsp, hm⟩ := he.mem_cases
    · rw [hm]
      exact ⟨fun _ _ _ => rfl, fun _ _ => rfl⟩
    · refine ⟨fun hpush hcall => (hi.elim (hpush a) (hcall a)).elim, fun addr haddr => ?_⟩
      rw [hm, Memory.read_write_other]
      exact (haddr s1 sp h1 (State.readReg_val hsp)).symm

/-- Settles O45: the pc of each effect; an error is excluded, since it records a fault. -/
theorem pcAfterInstruction : Obligations.PcAfterInstruction := by
  intro i s t hs h ht
  obtain ⟨e, rfl⟩ | he := exec_next h
  · cases ht
  cases i with
  | hlt | ldi | nop => cases he; rfl
  | prn | not => obtain ⟨v, -, rfl⟩ := he; rfl
  | add | sub | mul | and | or | xor | shl | shr | cmp => obtain ⟨va, vb, -, -, rfl⟩ := he; rfl
  | mod a b =>
    obtain ⟨va, vb, -, hb, ⟨rfl, rfl⟩ | ⟨hvb, rfl⟩⟩ := he
    · simp only [State.divideByZeroHalt_pc, hb]
      cases Config.modZeroAdvancesPc <;> rfl
    · simp [hb, hvb]
  | jmp a => obtain ⟨v, hv, rfl⟩ := he; exact val_eq_ofNat_toNat hv
  | jeq a =>
    obtain ⟨e, l, g, hf, ⟨rfl, v, hv, rfl⟩ | ⟨rfl, rfl⟩⟩ := he
    · exact ⟨true, l, g, hf, val_eq_ofNat_toNat hv⟩
    · exact ⟨false, l, g, hf, rfl⟩
  | jne a =>
    obtain ⟨e, l, g, hf, ⟨rfl, v, hv, rfl⟩ | ⟨rfl, rfl⟩⟩ := he
    · exact ⟨false, l, g, hf, val_eq_ofNat_toNat hv⟩
    · exact ⟨true, l, g, hf, rfl⟩
  | push a => obtain ⟨s1, sp, v, h1, -, -, rfl⟩ := he; obtain ⟨q, -, rfl⟩ := decSp_ok h1; rfl
  | pop a => obtain ⟨sp, v, s1, -, -, h1, rfl⟩ := he; obtain ⟨q, -, rfl⟩ := incSp_ok h1; rfl
  | call a => obtain ⟨-, s1, sp, v, -, -, hv, rfl⟩ := he; exact (val_eq_ofNat_toNat hv).symm
  | ret =>
    obtain ⟨sp, v, s1, hsp, hm, -, rfl⟩ := he
    exact ⟨sp, hsp, by simpa using hm, Nat.le_of_lt_succ v.isLt⟩

/-- Settles O46: an error is `State.raise`, and an effect has the frames of the fault record, of `running` and of the
events. -/
theorem statusAndEventsFrame : Obligations.StatusAndEventsFrame := by
  intro i s t h
  obtain ⟨e, rfl⟩ | he := exec_next h
  · exact .inl ⟨e, rfl, rfl⟩
  · exact .inr ⟨he.fault_eq, he.running_eq, he.events_eq⟩

/-- Settles O47: a step takes an error or has an effect; among the effects PRN and MOD by zero append, the others keep
the events. -/
theorem eventsOnlyAppended : Obligations.EventsOnlyAppended := by
  refine ⟨fun p s h => ?_, fun s t h => ?_⟩
  · obtain ⟨m, rfl⟩ := load_ok h
    rfl
  obtain ⟨⟨-, hfault⟩, ⟨e, rfl⟩ | ⟨i, hf, he⟩⟩ := step_cases h
  · exact .inr (.inr (.inl ⟨_, rfl, rfl⟩))
  have hnone : t.fault = none := he.fault_eq.trans hfault
  cases i with
  | prn a =>
    obtain ⟨v, hv, rfl⟩ := he
    exact .inl ⟨a, v, hf, hv, rfl⟩
  | mod a b =>
    obtain ⟨va, vb, ha, hb, ⟨rfl, rfl⟩ | ⟨-, rfl⟩⟩ := he
    · exact .inr (.inl ⟨a, b, va, hf, ha, hb, State.divideByZeroHalt_events s a b⟩)
    · exact .inr (.inr (.inr ⟨hnone, rfl⟩))
  | _ => exact .inr (.inr (.inr ⟨hnone, he.events_eq nofun nofun⟩))

/-- Settles O48: the laws of `readReg` and `writeReg`, and along a run what every step keeps (`step_reg_written`). -/
theorem registerCells : Obligations.RegisterCells := by
  refine ⟨fun _ _ _ => State.readReg_val, fun _ _ => State.readReg_unwritten, fun s r v => ?_, fun s t r h hr => ?_⟩
  · exact ⟨State.writeReg_reg_same s r v, fun q => State.writeReg_reg_other s v⟩
  · exact h.keeps (P := fun u => u.reg r ≠ .unwritten) (fun _ _ => step_reg_written) hr

/-- Settles O49: the laws of `memRead`, and along a run what every step keeps (`step_mem_written`). -/
theorem memoryCells : Obligations.MemoryCells := by
  refine ⟨fun _ _ => State.memRead_outOfRange, fun _ _ => State.memRead_unwritten, fun _ _ _ => State.memRead_some,
    fun s t addr h hm => ?_⟩
  exact h.keeps (P := fun u => u.mem.read addr ≠ none) (fun _ _ => step_mem_written) hm

/-- Settles O50: the write is `writeMem`, and a read after it is `Memory.read_write`. -/
theorem readSeesLastWrite : Obligations.ReadSeesLastWrite := by
  intro s addr v
  refine ⟨fun h => by simp [State.memWrite, h], fun h => ⟨s.writeMem addr v, State.memWrite_le v h, ?_, ?_, rfl⟩⟩
  · exact State.memRead_some h (Memory.read_write_same s.mem addr v)
  · intro q hq
    simp [State.memRead, Memory.read_write_other s.mem v hq]

/-- Settles O51: PUSH and CALL store at the address SP then holds; a read there sees the stored byte, and so does the
fetch of any state with that memory and its pc there. -/
theorem fetchSeesStoredByte : Obligations.FetchSeesStoredByte := by
  rintro i s t sp' ⟨a, hi⟩ - h ht hsp'
  obtain ⟨e, rfl⟩ | he := exec_next h
  · cases ht
  obtain rfl | rfl := hi
  · obtain ⟨s1, sp, v, -, hsp, hv, rfl⟩ := he
    obtain rfl : sp = sp' := RegCell.val.inj (hsp.symm.trans hsp')
    have hread := Memory.read_write_same s1.mem sp.toNat v
    refine ⟨v, fun _ hi => by cases hi; exact hv, nofun, hread, fun u hu => State.memRead_of_mem_eq hread hu, ?_⟩
    exact fun u hu hmem hpc => step_of_memRead hu (hpc ▸ State.memRead_of_mem_eq hread hmem)
  · obtain ⟨-, s1, sp, v, -, hsp, -, rfl⟩ := he
    obtain rfl : sp = sp' := RegCell.val.inj (hsp.symm.trans hsp')
    have hread := Memory.read_write_same s1.mem sp.toNat (BitVec.ofNat 8 (s.pc + 2))
    refine ⟨_, nofun, fun _ _ => rfl, hread, fun u hu => State.memRead_of_mem_eq hread hu, ?_⟩
    exact fun u hu hmem hpc => step_of_memRead hu (hpc ▸ State.memRead_of_mem_eq hread hmem)

end Sys2Proof
end

section
/-! The statements about loading (R38, R128 to R130): where the bytes of a program go, and the lines of a program file. -/

namespace Sys2Proof.Machine

/-! ### Placing the bytes of a program -/

/-- Bytes that have cells are placed one after the other, and every other cell is as before. -/
theorem placeBytes_reads {p : List Byte} {s : State} {addr : Nat} (h : addr + p.length ≤ 256) :
    ∃ t, placeBytes s addr p = .ok t ∧ (∀ k, k < p.length → t.mem.read (addr + k) = p[k]?) ∧
      ∀ q, q < addr ∨ addr + p.length ≤ q → t.mem.read q = s.mem.read q := by
  induction p generalizing s addr with
  | nil => exact ⟨s, rfl, nofun, fun _ _ => rfl⟩
  | cons b bs ih =>
    simp only [List.length_cons] at h ⊢
    obtain ⟨t, ht, hin, hout⟩ := ih (s := s.writeMem addr b) (addr := addr + 1) (by omega)
    refine ⟨t, by rw [placeBytes_cons b bs (by omega), ht], fun k hk => ?_, fun q hq => ?_⟩
    · cases k with
      | zero =>
        rw [Nat.add_zero, hout addr (by omega)]
        exact Memory.read_write_same s.mem addr b
      | succ k =>
        rw [Nat.add_comm k 1, ← Nat.add_assoc, hin k (by omega), Nat.add_comm 1 k]
        rfl
    · rw [hout q (by omega)]
      exact Memory.read_write_other s.mem b (by omega)

/-- Bytes that end past the last cell are not placed: the byte for address 256 has none. -/
theorem placeBytes_too_long {p : List Byte} {s : State} {addr : Nat} (haddr : addr ≤ 256) (h : 256 < addr + p.length) :
    placeBytes s addr p = .error (.outOfRange 256) := by
  induction p generalizing s addr with
  | nil => exact absurd h (Nat.not_lt.2 haddr)
  | cons b bs ih =>
    simp only [List.length_cons] at h
    obtain rfl | hlt := haddr.eq_or_lt
    · exact placeBytes_outOfRange b bs (by decide)
    · rw [placeBytes_cons b bs (by omega)]
      exact ih hlt (by omega)

theorem placeBytes_wf {p : List Byte} {s t : State} {addr : Nat} (hs : s.mem.wf) (h : placeBytes s addr p = .ok t) :
    t.mem.wf := by
  induction p generalizing s addr with
  | nil => cases h; exact hs
  | cons b bs ih =>
    obtain ⟨u, hu, h⟩ := bind_ok h
    exact ih (State.memWrite_wf hs hu) h

/-- R0 to R6 are `Unwritten` after reset (R16). -/
theorem reset_reg_unwritten (r : Reg) (h : r.val < 7) : State.reset.reg r = .unwritten := by
  revert r
  decide

/-! ### Binary literals -/

/-- The lowest `n` bits of `v` as characters, most significant bit first. -/
def bitChars (v : Nat) : Nat → List Char
  | 0 => []
  | k + 1 => (if v.testBit k then '1' else '0') :: bitChars v k

theorem literalChars_eq (b : Byte) : Claims.literalChars b = bitChars b.toNat 8 := rfl

theorem binaryDigit_bit (x : Bool) : binaryDigit (if x then '1' else '0') = some x.toNat := by
  cases x <;> rfl

theorem binaryDigit_some {c : Char} {d : Nat} (h : binaryDigit c = some d) :
    ∃ x : Bool, d = x.toNat ∧ c = if x then '1' else '0' := by
  simp only [binaryDigit, beq_iff_eq] at h
  split at h
  · next hc => cases h; exact ⟨false, rfl, hc⟩
  · split at h
    · next hc => cases h; exact ⟨true, rfl, hc⟩
    · cases h

/-- One bit further down: the quotient by `2 ^ k` has bit `k` as its last. -/
theorem div_two_pow_eq (v k : Nat) : v / 2 ^ k = 2 * (v / 2 ^ (k + 1)) + (v.testBit k).toNat := by
  rw [Nat.toNat_testBit, Nat.pow_succ, ← Nat.div_div_eq_div_mul]
  omega

theorem two_mul_add_bit_inj {a b : Nat} {x y : Bool} (h : 2 * a + x.toNat = 2 * b + y.toNat) : a = b ∧ x = y := by
  cases x <;> cases y <;> simp only [Bool.toNat_false, Bool.toNat_true] at h
  · exact ⟨by omega, rfl⟩
  · omega
  · omega
  · exact ⟨by omega, rfl⟩

/-- The bits of a number, read after its higher part, give the number. -/
theorem binaryValue_bitChars (v n : Nat) : binaryValue (v / 2 ^ n) (bitChars v n) = some v := by
  induction n with
  | zero => simp [bitChars, binaryValue]
  | succ k ih => simp only [bitChars, binaryValue, binaryDigit_bit, ← div_two_pow_eq, ih]

/-- Characters that have a binary value are its bits. -/
theorem binaryValue_some {cs : List Char} {acc v : Nat} (h : binaryValue acc cs = some v) :
    v / 2 ^ cs.length = acc ∧ cs = bitChars v cs.length := by
  induction cs generalizing acc with
  | nil => cases h; simp [bitChars]
  | cons c cs ih =>
    cases hd : binaryDigit c with
    | none => simp [binaryValue, hd] at h
    | some d =>
      simp only [binaryValue, hd] at h
      obtain ⟨x, rfl, rfl⟩ := binaryDigit_some hd
      obtain ⟨hdiv, hcs⟩ := ih h
      rw [div_two_pow_eq] at hdiv
      obtain ⟨hhigh, hbit⟩ := two_mul_add_bit_inj hdiv
      refine ⟨hhigh, ?_⟩
      rw [List.length_cons, bitChars, hbit, ← hcs]

theorem binaryLiteral_literalChars (b : Byte) : binaryLiteral (Claims.literalChars b) = some b := by
  have hv : binaryValue 0 (Claims.literalChars b) = some b.toNat := by
    have := binaryValue_bitChars b.toNat 8
    rwa [Nat.div_eq_of_lt b.isLt] at this
  simp [binaryLiteral, hv, show (Claims.literalChars b).length = 8 from rfl]

theorem binaryLiteral_some {cs : List Char} {b : Byte} (h : binaryLiteral cs = some b) : cs = Claims.literalChars b := by
  simp only [binaryLiteral] at h
  split at h
  · next hlen =>
    obtain ⟨v, hv, rfl⟩ := Option.map_eq_some_iff.1 h
    obtain ⟨hdiv, hcs⟩ := binaryValue_some hv
    rw [hlen] at hdiv hcs
    have hlt : v < 256 := Nat.lt_of_div_eq_zero (by decide) hdiv
    rw [hcs, literalChars_eq, BitVec.toNat_ofNat, Nat.mod_eq_of_lt hlt]
  · cases h

/-! ### The text of a line -/

/-- The characters of a literal are neither white space nor the beginning of a comment. -/
theorem mem_literalChars {b : Byte} {c : Char} (h : c ∈ Claims.literalChars b) : isSpace c = false ∧ (c != '#') = true := by
  obtain ⟨k, -, rfl⟩ := List.mem_map.1 h
  split <;> decide

theorem dropWhile_eq_self_of_forall {α : Type} {p : α → Bool} {l : List α} (h : ∀ c ∈ l, p c = false) :
    l.dropWhile p = l := by
  cases l with
  | nil => rfl
  | cons c l => rw [List.dropWhile_cons, h c List.mem_cons_self]; rfl

/-- The text of characters without white space or a comment, alone or followed by a comment, is those characters. -/
theorem lineText_append {cs tail : List Char} (hcs : ∀ c ∈ cs, isSpace c = false ∧ (c != '#') = true)
    (htail : tail.takeWhile (fun c => c != '#') = []) : lineText (cs ++ tail) = cs := by
  have hspace : ∀ c ∈ cs, isSpace c = false := fun c hc => (hcs c hc).1
  have hrev : ∀ c ∈ cs.reverse, isSpace c = false := fun c hc => hspace c (List.mem_reverse.1 hc)
  rw [lineText, List.takeWhile_append_of_pos fun c hc => (hcs c hc).2, htail, List.append_nil,
    dropWhile_eq_self_of_forall hspace, dropWhile_eq_self_of_forall hrev, List.reverse_reverse]

/-- A line with a literal has it as its text (R129). -/
theorem lineText_lineOf_some (b : Byte) (comment : Option (List Char)) :
    lineText (Claims.lineOf (some b, comment)) = Claims.literalChars b :=
  lineText_append (fun _ => mem_literalChars) (by cases comment <;> rfl)

/-- A line without one has no text. -/
theorem lineText_lineOf_none (comment : Option (List Char)) : lineText (Claims.lineOf (none, comment)) = [] :=
  lineText_append nofun (by cases comment <;> rfl)

/-! ### The lines of a file -/

theorem parseFile_lines (lines : List (Option Byte × Option (List Char))) :
    parseFile (lines.map Claims.lineOf) = .ok (lines.filterMap fun l => l.1) := by
  induction lines with
  | nil => rfl
  | cons l lines ih =>
    obtain ⟨_ | b, comment⟩ := l
    · rw [List.map_cons, parseFile_blank _ (lineText_lineOf_none comment), ih]
      rfl
    · have htext := lineText_lineOf_some b comment
      have hne : lineText (Claims.lineOf (some b, comment)) ≠ [] := htext ▸ nofun
      rw [List.map_cons, parseFile_literal _ hne (by rw [htext, binaryLiteral_literalChars]), ih]
      rfl

/-- A line that does not parse makes the file not parse, whatever stands before it. -/
theorem parseFile_append_error {line : List Char} {after : List (List Char)}
    (h : ∀ bs, parseFile (line :: after) ≠ .ok bs) (before : List (List Char)) :
    ∀ bs, parseFile (before ++ line :: after) ≠ .ok bs := by
  induction before with
  | nil => exact h
  | cons l before ih =>
    intro bs hbs
    rw [List.cons_append] at hbs
    by_cases hl : lineText l = []
    · rw [parseFile_blank _ hl] at hbs
      exact ih bs hbs
    · cases hb : binaryLiteral (lineText l) with
      | none => rw [parseFile_malformed _ hl hb] at hbs; cases hbs
      | some b =>
        rw [parseFile_literal _ hl hb] at hbs
        obtain ⟨bs', hbs', -⟩ := bind_ok hbs
        exact ih bs' hbs'

end Sys2Proof.Machine

namespace Sys2Proof

open Machine Claims

/-- Settles O53: byte k is placed at address k (`placeBytes_reads`), a 257th byte has no cell, and the rest of the start
state is that after reset. -/
theorem loadGivesStartState : Obligations.LoadGivesStartState := by
  refine ⟨fun p hp => ?_, fun p hp => ?_⟩
  · obtain ⟨s, hs, hin, hout⟩ := placeBytes_reads (s := State.reset) (addr := Config.loadBase) (p := p) (by simpa using hp)
    have hload : load p = .ok s := by rw [load, hs, ok_mapError]
    have hread : ∀ k, s.mem.read k = p[k]? := by
      intro k
      by_cases hk : k < p.length
      · simpa using hin k hk
      · rw [hout k (.inr (by simpa using hk)), List.getElem?_eq_none (Nat.not_lt.1 hk)]
        rfl
    obtain ⟨m, rfl⟩ := load_ok hload
    exact ⟨_, hload, reset_reg_unwritten, rfl, hread, rfl, rfl, rfl, rfl, rfl⟩
  · rw [load, placeBytes_too_long (by decide) (by simpa using hp), error_mapError]

/-- Settles O54: the fields of the reset state. -/
theorem resetIsEmptyProgramStart : Obligations.ResetIsEmptyProgramStart :=
  ⟨rfl, rfl, rfl, rfl, rfl, rfl, rfl, rfl, reset_reg_unwritten⟩

/-- Settles O55: each line of the form has its literal, or nothing, as its text; any other text is no literal
(`binaryLiteral_some`), and the error reaches the end of the file. -/
theorem programFileContract : Obligations.ProgramFileContract := by
  refine ⟨fun lines => ⟨parseFile_lines lines, ?_⟩, fun before line after hne hlit s hs => ?_⟩
  · rw [loadFile, parseFile_lines, ok_bind]
  · have hbad : binaryLiteral (lineText line) = none :=
      Option.eq_none_iff_forall_ne_some.2 fun b hb => hlit b (binaryLiteral_some hb)
    have herror : ∀ bs, parseFile (line :: after) ≠ .ok bs := by
      rw [parseFile_malformed _ hne hbad]
      exact nofun
    obtain ⟨bs, hbs, -⟩ := bind_ok hs
    exact parseFile_append_error herror before bs hbs

end Sys2Proof
end

section
/-! The statements about the invariant (R27, R34, R99, R105, R113, R114): it holds of every start state, every step keeps
it, and so a run is at each point enabled, halted or faulted (R77). -/

namespace Sys2Proof.Machine

/-- The reset state, whatever canonical memory it is given, has the invariant. -/
theorem reset_inv {m : Memory} (hm : m.wf) : State.Inv { State.reset with mem := m } where
  memory := hm
  stackPointer := ⟨Config.spReset, rfl⟩
  pcBound := Nat.zero_le _
  flags := trivial
  faultRunning := fun _ => rfl
  faultRecord := nofun

theorem load_inv {p : List Byte} {s : State} (h : load p = .ok s) : s.Inv := by
  have hwf : s.mem.wf := placeBytes_wf State.reset_mem_wf (mapError_ok h)
  obtain ⟨m, rfl⟩ := load_ok h
  exact reset_inv hwf

/-- An error changes the fault record, with the pc, and its diagnostic only (R114). -/
theorem State.Inv.raise {s : State} (h : s.Inv) (hs : Enabled s) (e : FatalError) : (s.raise e).Inv where
  memory := h.memory
  stackPointer := h.stackPointer
  pcBound := h.pcBound
  flags := h.flags
  faultRunning := fun _ => hs.1
  faultRecord := fun r hr => by cases hr; simp

/-- Only CMP writes the flags, and exactly one of them is true after it (R99). -/
theorem Effect.flags_exactlyOne {i : Instr} {s t : State} (h : Effect i s t) (hs : s.flags.exactlyOne) :
    t.flags.exactlyOne := by
  cases i with
  | cmp a b => obtain ⟨va, vb, -, -, rfl⟩ := h; exact compareFlags_exactlyOne va vb
  | _ => rw [h.flags_of_ne_cmp nofun]; exact hs

/-- An effect never leaves a register of the invariant without a value (R17, R105). -/
theorem Effect.reg_val {i : Instr} {s t : State} (h : Effect i s t) {r : Reg} (hr : ∃ v, s.reg r = .val v) :
    ∃ v, t.reg r = .val v := by
  obtain ht | ⟨-, hv⟩ := h.writesOnly r
  · rwa [ht]
  · exact hv

/-- The effect of an instruction fetched inside memory keeps the invariant. -/
theorem Effect.inv {i : Instr} {s t : State} (h : Effect i s t) (hs : s.Inv) (hpc : s.pc ≤ 255) (hf : s.fault = none) :
    t.Inv where
  memory := h.mem_wf hs.memory
  stackPointer := h.reg_val hs.stackPointer
  pcBound := by have := h.pc_le; omega
  flags := h.flags_exactlyOne hs.flags
  faultRunning := fun ht => absurd (h.fault_eq.trans hf) ht
  faultRecord := fun r hr => by rw [h.fault_eq, hf] at hr; cases hr

theorem step_inv {s t : State} (hs : s.Inv) (h : step s = .next t) : t.Inv := by
  obtain ⟨henabled, ⟨e, rfl⟩ | ⟨i, hf, he⟩⟩ := step_cases h
  · exact hs.raise henabled e
  · exact he.inv hs (fetch_ok hf).1 henabled.2

/-- A state whose fault excludes a halt is in exactly one of the three conditions. -/
theorem enabled_or_halted_or_faulted {s : State} (h : s.fault ≠ none → s.running = true) :
    (Enabled s ∧ ¬ Halted s ∧ ¬ Faulted s) ∨ (Halted s ∧ ¬ Enabled s ∧ ¬ Faulted s) ∨
      (Faulted s ∧ ¬ Enabled s ∧ ¬ Halted s) := by
  by_cases hf : s.fault = none
  · cases hr : s.running
    · exact .inr (.inl (by simp [Enabled, Halted, Faulted, hf, hr]))
    · exact .inl (by simp [Enabled, Halted, Faulted, hf, hr])
  · exact .inr (.inr (by simp [Enabled, Halted, Faulted, hf, h hf]))

end Sys2Proof.Machine

namespace Sys2Proof

open Machine

/-- Settles O57: `step_inv`, by an error's frame and an effect's. -/
theorem stepKeepsInvariant : Obligations.StepKeepsInvariant :=
  fun _ _ => step_inv

/-- Settles O56: a start state is the reset state with a canonical memory. -/
theorem startStatesHaveInvariant : Obligations.StartStatesHaveInvariant :=
  ⟨reset_inv State.reset_mem_wf, fun _ _ => load_inv⟩

/-- Settles O16: the invariant holds along the run, so its fault excludes a halt; a step is enabled by
`exists_step_iff_enabled`. -/
theorem runEndsHaltedOrFaulted : Obligations.RunEndsHaltedOrFaulted := by
  intro p s t hp h
  have hinv : t.Inv := h.keeps (P := State.Inv) (fun _ _ => step_inv) (load_inv hp)
  exact ⟨enabled_or_halted_or_faulted hinv.faultRunning, exists_step_iff_enabled⟩

end Sys2Proof
end

section
/-! The statements about the Less and Greater flags, which nothing reads (R22, R104): every part of an instruction but
CMP's write and the read of Equal goes alike whatever the flags are, and the Equal flag alone decides a branch. -/

namespace Sys2Proof.Machine

/-! ### Parts of an instruction that leave the flags alone -/

/-- The flags may be written before or after `op`: it neither reads nor writes them. -/
def KeepsFlagsApart (op : State → Result State) : Prop :=
  ∀ f s, op (s.writeFlags f) = (op s).map (·.writeFlags f)

theorem KeepsFlagsApart.ok {g : State → State} (h : ∀ f s, g (s.writeFlags f) = (g s).writeFlags f) :
    KeepsFlagsApart fun s => .ok (g s) :=
  fun f s => congrArg Except.ok (h f s)

theorem KeepsFlagsApart.andThen {op op' : State → Result State} (h : KeepsFlagsApart op) (h' : KeepsFlagsApart op') :
    KeepsFlagsApart fun s => op s >>= op' := by
  intro f s
  dsimp only
  rw [h f s]
  cases op s with
  | ok t => exact h' f t
  | error e => rfl

theorem KeepsFlagsApart.read {α : Type} {rd : State → Result α} {k : α → State → Result State}
    (hrd : ∀ f s, rd (s.writeFlags f) = rd s) (hk : ∀ v, KeepsFlagsApart (k v)) :
    KeepsFlagsApart fun s => rd s >>= fun v => k v s := by
  intro f s
  dsimp only
  rw [hrd f s]
  cases rd s with
  | ok v => exact hk v f s
  | error e => rfl

theorem KeepsFlagsApart.testPc {p : Nat → Prop} [DecidablePred p] {op op' : State → Result State}
    (h : KeepsFlagsApart op) (h' : KeepsFlagsApart op') : KeepsFlagsApart fun s => if p s.pc then op s else op' s := by
  intro f s
  by_cases hp : p s.pc
  · simpa [hp] using h f s
  · simpa [hp] using h' f s

theorem readReg_writeFlags (r : Reg) (f : Flags) (s : State) : (s.writeFlags f).readReg r = s.readReg r := rfl

theorem readPair_writeFlags (a b : Reg) (f : Flags) (s : State) : readPair a b (s.writeFlags f) = readPair a b s := rfl

theorem loadAtSp_writeFlags (f : Flags) (s : State) : loadAtSp (s.writeFlags f) = loadAtSp s := rfl

theorem fetch_writeFlags (f : Flags) (s : State) : fetch (s.writeFlags f) = fetch s := rfl

theorem decSp_keepsFlagsApart : KeepsFlagsApart decSp :=
  .read (readReg_writeFlags _) fun _ => .ok fun _ _ => rfl

theorem incSp_keepsFlagsApart : KeepsFlagsApart incSp :=
  .read (readReg_writeFlags _) fun _ => .ok fun _ _ => rfl

theorem memWrite_keepsFlagsApart (addr : Nat) (v : Byte) : KeepsFlagsApart fun s => s.memWrite addr v := by
  intro f s
  simp only [State.memWrite]
  split <;> rfl

theorem storeAtSp_keepsFlagsApart (v : Byte) : KeepsFlagsApart (storeAtSp v) :=
  .read (readReg_writeFlags _) fun sp => memWrite_keepsFlagsApart sp.toNat v

theorem branchIf_keepsFlagsApart (taken : Bool) (a : Reg) : KeepsFlagsApart (branchIf taken a) := by
  cases taken with
  | true => exact .read (readReg_writeFlags a) fun _ => .ok fun _ _ => rfl
  | false => exact .ok fun _ _ => rfl

theorem divideByZeroHalt_writeFlags (a b : Reg) (f : Flags) (s : State) :
    (s.writeFlags f).divideByZeroHalt a b = (s.divideByZeroHalt a b).writeFlags f := by
  unfold State.divideByZeroHalt
  split <;> rfl

/-! ### Instructions whose meaning leaves the flags alone -/

/-- The meaning of `i` is `complete` of a part that leaves the flags alone. -/
def FlagFree (i : Instr) : Prop := ∃ op, KeepsFlagsApart op ∧ ∀ s, exec i s = complete s (op s)

theorem flagFree_of_binary {i : Instr} {f : Byte → Byte → Byte} {a b : Reg} (h : ∀ s, exec i s = execBinary f a b s) :
    FlagFree i := by
  refine ⟨_, ?_, h⟩
  refine .andThen (.read (readPair_writeFlags a b) ?_) (.ok fun _ _ => rfl)
  exact fun ⟨_, _⟩ => .ok fun _ _ => rfl

theorem flagFree_push (a : Reg) : FlagFree (.push a) := by
  refine ⟨_, ?_, fun _ => rfl⟩
  refine decSp_keepsFlagsApart.andThen (.read (readReg_writeFlags a) fun v => ?_)
  exact (storeAtSp_keepsFlagsApart v).andThen (.ok fun _ _ => rfl)

theorem flagFree_pop (a : Reg) : FlagFree (.pop a) := by
  refine ⟨_, ?_, fun _ => rfl⟩
  refine .read loadAtSp_writeFlags fun v => ?_
  have hinc : KeepsFlagsApart fun s => incSp (s.writeReg a v) := fun f s => incSp_keepsFlagsApart f (s.writeReg a v)
  exact hinc.andThen (.ok fun _ _ => rfl)

theorem flagFree_ret : FlagFree .ret := by
  refine ⟨_, ?_, fun _ => rfl⟩
  exact .read loadAtSp_writeFlags fun v => incSp_keepsFlagsApart.andThen (.ok fun _ _ => rfl)

/-- The part of CALL after the check of its return address. -/
theorem callStores_keepsFlagsApart (a : Reg) (ret : Byte) : KeepsFlagsApart fun s =>
    decSp s >>= fun s1 => storeAtSp ret s1 >>= fun s2 => s2.readReg a >>= fun t => .ok (s2.jump t) := by
  refine decSp_keepsFlagsApart.andThen ((storeAtSp_keepsFlagsApart _).andThen ?_)
  exact .read (readReg_writeFlags a) fun _ => .ok fun _ _ => rfl

theorem flagFree_call (a : Reg) : FlagFree (.call a) := by
  refine ⟨_, ?_, fun _ => rfl⟩
  refine .testPc (p := fun pc => pc + 2 > 255) (fun _ _ => rfl) ?_
  exact fun f s => callStores_keepsFlagsApart a (BitVec.ofNat 8 (s.pc + 2)) f s

theorem flagFree_mod (a b : Reg) : FlagFree (.mod a b) := by
  refine ⟨_, ?_, fun _ => rfl⟩
  refine .read (readPair_writeFlags a b) fun ⟨va, vb⟩ f s => ?_
  dsimp only
  split
  · exact congrArg Except.ok (divideByZeroHalt_writeFlags a b f s)
  · rfl

theorem flagFree_hlt : FlagFree .hlt := ⟨_, .ok fun _ _ => rfl, fun _ => rfl⟩

theorem flagFree_nop : FlagFree .nop := ⟨_, .ok fun _ _ => rfl, fun _ => rfl⟩

theorem flagFree_ldi (a : Reg) (imm : Byte) : FlagFree (.ldi a imm) := ⟨_, .ok fun _ _ => rfl, fun _ => rfl⟩

theorem flagFree_prn (a : Reg) : FlagFree (.prn a) :=
  ⟨_, .read (readReg_writeFlags a) fun _ => .ok fun _ _ => rfl, fun _ => rfl⟩

theorem flagFree_not (a : Reg) : FlagFree (.not a) :=
  ⟨_, .andThen (.read (readReg_writeFlags a) fun _ => .ok fun _ _ => rfl) (.ok fun _ _ => rfl), fun _ => rfl⟩

theorem flagFree_jmp (a : Reg) : FlagFree (.jmp a) := ⟨_, branchIf_keepsFlagsApart true a, fun _ => rfl⟩

/-! ### States that differ in Less and Greater only -/

/-- One state with the flags written twice, the Equal flag the same. -/
def DifferInLessGreater (s s' : State) : Prop :=
  ∃ (u : State) (e l g l' g' : Bool), s = u.writeFlags (.set e l g) ∧ s' = u.writeFlags (.set e l' g')

theorem DifferInLessGreater.refl {s : State} {e l g : Bool} (h : s.flags = .set e l g) : DifferInLessGreater s s := by
  have hs : s = s.writeFlags (.set e l g) := by rw [← h]; rfl
  exact ⟨s, e, l, g, l, g, hs, hs⟩

/-- Both outcomes are next states that differ in Less and Greater only. -/
def NextAlike (o o' : Out) : Prop := ∃ t t', o = .next t ∧ o' = .next t' ∧ DifferInLessGreater t t'

theorem raise_alike (u : State) (x : FatalError) (e l g l' g' : Bool) :
    NextAlike (.next ((u.writeFlags (.set e l g)).raise x)) (.next ((u.writeFlags (.set e l' g')).raise x)) :=
  ⟨_, _, rfl, rfl, u.raise x, e, l, g, l', g', rfl, rfl⟩

theorem complete_alike {op : State → Result State} (h : KeepsFlagsApart op) (u : State) (e l g l' g' : Bool) :
    NextAlike (complete (u.writeFlags (.set e l g)) (op (u.writeFlags (.set e l g))))
      (complete (u.writeFlags (.set e l' g')) (op (u.writeFlags (.set e l' g')))) := by
  rw [h, h]
  cases op u with
  | ok t => exact ⟨_, _, rfl, rfl, t, e, l, g, l', g', rfl, rfl⟩
  | error x => exact raise_alike u x e l g l' g'

theorem FlagFree.exec_alike {i : Instr} (h : FlagFree i) (u : State) (e l g l' g' : Bool) :
    NextAlike (exec i (u.writeFlags (.set e l g))) (exec i (u.writeFlags (.set e l' g'))) := by
  obtain ⟨op, hop, hexec⟩ := h
  rw [hexec, hexec]
  exact complete_alike hop u e l g l' g'

/-- CMP reads two registers, and its flags depend on their values only. -/
theorem exec_cmp_alike (a b : Reg) (u : State) (e l g l' g' : Bool) :
    NextAlike (exec (.cmp a b) (u.writeFlags (.set e l g))) (exec (.cmp a b) (u.writeFlags (.set e l' g'))) := by
  simp only [exec, execCmp, readPair_writeFlags]
  cases readPair a b u with
  | ok v => exact ⟨_, _, rfl, rfl, .refl (s := (u.writeFlags (compareFlags v.1 v.2)).advance 3) rfl⟩
  | error x => exact raise_alike u x e l g l' g'

theorem exec_alike (i : Instr) (u : State) (e l g l' g' : Bool) :
    NextAlike (exec i (u.writeFlags (.set e l g))) (exec i (u.writeFlags (.set e l' g'))) := by
  cases i with
  | cmp a b => exact exec_cmp_alike a b u e l g l' g'
  | jeq a => exact complete_alike (branchIf_keepsFlagsApart e a) u e l g l' g'
  | jne a => exact complete_alike (branchIf_keepsFlagsApart (!e) a) u e l g l' g'
  | add | sub | mul | and | or | xor | shl | shr => exact (flagFree_of_binary fun _ => rfl).exec_alike u e l g l' g'
  | mod a b => exact (flagFree_mod a b).exec_alike u e l g l' g'
  | not a => exact (flagFree_not a).exec_alike u e l g l' g'
  | hlt => exact flagFree_hlt.exec_alike u e l g l' g'
  | nop => exact flagFree_nop.exec_alike u e l g l' g'
  | ldi a imm => exact (flagFree_ldi a imm).exec_alike u e l g l' g'
  | prn a => exact (flagFree_prn a).exec_alike u e l g l' g'
  | jmp a => exact (flagFree_jmp a).exec_alike u e l g l' g'
  | push a => exact (flagFree_push a).exec_alike u e l g l' g'
  | pop a => exact (flagFree_pop a).exec_alike u e l g l' g'
  | call a => exact (flagFree_call a).exec_alike u e l g l' g'
  | ret => exact flagFree_ret.exec_alike u e l g l' g'

/-- Two such states are enabled alike, fetch the same and step alike, or stop for the same reason. -/
theorem DifferInLessGreater.step {s s' : State} (h : DifferInLessGreater s s') :
    NextAlike (step s) (step s') ∨ ∃ r, step s = .fault r ∧ step s' = .fault r := by
  obtain ⟨u, e, l, g, l', g', rfl, rfl⟩ := h
  cases hf : u.fault with
  | some r => exact .inr ⟨_, step_of_fault hf, step_of_fault hf⟩
  | none =>
    cases hr : u.running with
    | false => exact .inr ⟨_, step_of_halted hr hf, step_of_halted hr hf⟩
    | true =>
      refine .inl ?_
      cases hi : fetch u with
      | ok i =>
        have hstep : ∀ f, Machine.step (u.writeFlags f) = exec i (u.writeFlags f) :=
          fun f => step_exec hr hf ((fetch_writeFlags f u).trans hi)
        rw [hstep, hstep]
        exact exec_alike i u e l g l' g'
      | error x =>
        have hstep : ∀ f, Machine.step (u.writeFlags f) = .next ((u.writeFlags f).raise x) :=
          fun f => step_raise hr hf ((fetch_writeFlags f u).trans hi)
        rw [hstep, hstep]
        exact raise_alike u x e l g l' g'

theorem DifferInLessGreater.runFor_events {s s' : State} (h : DifferInLessGreater s s') (n : Nat) :
    (runFor n s).events = (runFor n s').events := by
  have hevents : s.events = s'.events := by
    obtain ⟨u, e, l, g, l', g', rfl, rfl⟩ := h
    rfl
  induction n generalizing s s' with
  | zero => exact hevents
  | succ n ih =>
    obtain ⟨t, t', ht, ht', halike⟩ | ⟨r, hr, hr'⟩ := h.step
    · rw [runFor_succ_of_step ht, runFor_succ_of_step ht']
      refine ih halike ?_
      obtain ⟨u, e, l, g, l', g', rfl, rfl⟩ := halike
      rfl
    · rw [runFor_of_no_step (by simp [hr]), runFor_of_no_step (by simp [hr'])]
      exact hevents

end Sys2Proof.Machine

namespace Sys2Proof

open Machine

/-- Settles O58: `DifferInLessGreater.step`. -/
theorem lessGreaterNeverRead : Obligations.LessGreaterNeverRead := by
  intro s e l g l' g'
  have h : DifferInLessGreater { s with flags := .set e l g } { s with flags := .set e l' g' } :=
    ⟨s, e, l, g, l', g', rfl, rfl⟩
  obtain ⟨t, t', ht, ht', u, e2, l2, g2, l3, g3, rfl, rfl⟩ | ⟨r, hr, hr'⟩ := h.step
  · rw [ht, ht']
    exact ⟨e2, l2, g2, l3, g3, rfl, rfl⟩
  · rw [hr, hr']

/-- Settles O59: the two runs stay alike step by step (`DifferInLessGreater.runFor_events`). -/
theorem outputIndependentOfLessGreater : Obligations.OutputIndependentOfLessGreater :=
  fun n s e l g l' g' => DifferInLessGreater.runFor_events ⟨s, e, l, g, l', g', rfl, rfl⟩ n

end Sys2Proof
end

section
/-! The statements about HLT, PRN, the shifts, MOD and NOT (R79, R81, R95 to R98, R115), and what the host prints (R76). -/

namespace Sys2Proof.Machine

/-! ### The printed lines -/

theorem outputLines_emit_out (s : State) (v : Byte) : outputLines (s.emit (.out v)) = outputLines s ++ [decimal v] := by
  simp [outputLines, List.filterMap_append, eventLine]

theorem outputLines_emit_diag (s : State) (d : Diag) : outputLines (s.emit (.diag d)) = outputLines s := by
  simp [outputLines, List.filterMap_append, eventLine]

@[simp] theorem outputLines_advance (s : State) (n : Nat) : outputLines (s.advance n) = outputLines s := rfl

theorem decimalDigit_isDigit (n : Nat) : (decimalDigit n).isDigit = true := (decimalDigit_spec n).1

theorem decimalDigit_value (n : Nat) : (decimalDigit n).toNat - '0'.toNat = n % 10 := (decimalDigit_spec n).2.1

theorem decimalDigit_zero {n : Nat} (h : decimalDigit n = '0') : n % 10 = 0 := (decimalDigit_spec n).2.2 h

/-- The digits of a byte: one, two or three, as its value asks (R76, R81). -/
theorem decimal_cases (v : Byte) :
    (v.toNat < 10 ∧ decimal v = [decimalDigit v.toNat]) ∨
    (10 ≤ v.toNat ∧ v.toNat < 100 ∧ decimal v = [decimalDigit (v.toNat / 10), decimalDigit v.toNat]) ∨
    (100 ≤ v.toNat ∧ decimal v = [decimalDigit (v.toNat / 100), decimalDigit (v.toNat / 10), decimalDigit v.toNat]) := by
  by_cases h10 : v.toNat < 10
  · exact .inl ⟨h10, by simp [decimal, h10]⟩
  · by_cases h100 : v.toNat < 100
    · exact .inr (.inl ⟨Nat.not_lt.1 h10, h100, by simp [decimal, h10, h100]⟩)
    · exact .inr (.inr ⟨Nat.not_lt.1 h100, by simp [decimal, h10, h100]⟩)

theorem decimal_value (v : Byte) : (decimal v).foldl (fun n c => 10 * n + (c.toNat - '0'.toNat)) 0 = v.toNat := by
  have := v.isLt
  obtain ⟨h, hd⟩ | ⟨h, h', hd⟩ | ⟨h, hd⟩ := decimal_cases v <;>
    simp only [hd, List.foldl_cons, List.foldl_nil, decimalDigit_value] <;> omega

theorem decimal_isDigit (v : Byte) : ∀ c ∈ decimal v, c.isDigit = true := by
  obtain ⟨-, hd⟩ | ⟨-, -, hd⟩ | ⟨-, hd⟩ := decimal_cases v <;> simp [hd, decimalDigit_isDigit]

/-- Only the value 0 is written with a leading zero, and it is that digit alone (log 29). -/
theorem decimal_leading_zero {v : Byte} (h : (decimal v).head? = some '0') : v = 0#8 ∧ (decimal v).length = 1 := by
  have := v.isLt
  obtain ⟨hv, hd⟩ | ⟨hv, hv', hd⟩ | ⟨hv, hd⟩ := decimal_cases v <;> rw [hd] at h ⊢ <;>
    have hzero := decimalDigit_zero (Option.some.inj h)
  · exact ⟨BitVec.eq_of_toNat_eq (by simp only [BitVec.toNat_ofNat]; omega), rfl⟩
  · omega
  · omega

/-! ### The instructions' outcomes -/

theorem exec_prn_unwritten {a : Reg} {s : State} (ha : s.reg a = .unwritten) :
    exec (.prn a) s = .next (s.raise (.uninitialisedRegister a)) := by
  simp [exec, execPrn, State.readReg_unwritten ha]

theorem exec_prn_val {a : Reg} {s : State} {v : Byte} (ha : s.reg a = .val v) :
    exec (.prn a) s = .next ((s.emit (.out v)).advance 2) := by
  simp [exec, execPrn, State.readReg_val ha]

theorem exec_not_unwritten {a : Reg} {s : State} (ha : s.reg a = .unwritten) :
    exec (.not a) s = .next (s.raise (.uninitialisedRegister a)) := by
  simp [exec, execNot, updateReg, State.readReg_unwritten ha]

theorem exec_not_val {a : Reg} {s : State} {va : Byte} (ha : s.reg a = .val va) :
    exec (.not a) s = .next ((s.writeReg a (aluNot va)).advance 2) := by
  simp [exec, execNot, updateReg, State.readReg_val ha]

theorem exec_mod_first {a b : Reg} {s : State} (ha : s.reg a = .unwritten) :
    exec (.mod a b) s = .next (s.raise (.uninitialisedRegister a)) := by
  simp [exec, execMod, readPair_first ha]

theorem exec_mod_second {a b : Reg} {s : State} {va : Byte} (ha : s.reg a = .val va) (hb : s.reg b = .unwritten) :
    exec (.mod a b) s = .next (s.raise (.uninitialisedRegister b)) := by
  simp [exec, execMod, readPair_second ha hb]

theorem exec_mod_val {a b : Reg} {s : State} {va vb : Byte} (ha : s.reg a = .val va) (hb : s.reg b = .val vb)
    (hvb : vb ≠ 0#8) : exec (.mod a b) s = .next ((s.writeReg a (aluMod va vb)).advance 3) := by
  simp [exec, execMod, readPair_val ha hb, hvb]

/-- The graceful halt as one update: the diagnostic, `running`, and the pc as the OPEN parameter says (log 13). -/
theorem State.divideByZeroHalt_eq (s : State) (a b : Reg) : s.divideByZeroHalt a b =
    { s with events := s.events ++ [.diag (.divideByZero s.pc a b)], running := false,
             pc := if Config.modZeroAdvancesPc then s.pc + 3 else s.pc } := by
  unfold State.divideByZeroHalt
  split <;> rfl

/-- The remainder is less than a divisor that is not zero (R97). -/
theorem aluMod_lt (va : Byte) {vb : Byte} (h : vb ≠ 0#8) : (aluMod va vb).toNat < vb.toNat := by
  have hpos : vb.toNat ≠ 0 := fun hz => h (BitVec.eq_of_toNat_eq hz)
  rw [aluMod_toNat]
  exact Nat.mod_lt _ (Nat.pos_of_ne_zero hpos)

/-! ### The shifts by their amount (R95, R96) -/

/-- A left shift by 8 or more is a multiple of 256. -/
theorem aluShl_of_le {va vb : Byte} (h : 8 ≤ vb.toNat) : aluShl va vb = 0#8 := by
  apply BitVec.eq_of_toNat_eq
  have hdvd : 256 ∣ va.toNat * 2 ^ vb.toNat := Dvd.dvd.mul_left (pow_dvd_pow 2 h) _
  rw [aluShl_toNat, Nat.mod_eq_zero_of_dvd hdvd]
  rfl

/-- A right shift by 8 or more divides a byte by more than it is. -/
theorem aluShr_of_le {va vb : Byte} (h : 8 ≤ vb.toNat) : aluShr va vb = 0#8 := by
  apply BitVec.eq_of_toNat_eq
  have hlt : va.toNat < 2 ^ vb.toNat := va.isLt.trans_le (Nat.pow_le_pow_right (by decide) h)
  rw [aluShr_toNat, Nat.div_eq_of_lt hlt]
  rfl

theorem aluShl_zero (va : Byte) : aluShl va 0#8 = va := by
  simp [aluShl]

theorem aluShr_zero (va : Byte) : aluShr va 0#8 = va := by
  simp [aluShr]

end Sys2Proof.Machine

namespace Sys2Proof

open Machine Claims

/-- Settles O17: HLT's one outcome, `exec_hlt`; a fetch of its opcode reads no further byte. -/
theorem hltHalts : Obligations.HltHalts := by
  refine ⟨rfl, fun _ => rfl, fun s hs hread => ?_⟩
  exact (step_of_memRead hs hread).1 .hlt .hlt rfl rfl

/-- Settles O19: PRN's outcomes per state of Ra's cell; the event it appends is one line. -/
theorem prnEmits : Obligations.PrnEmits := by
  refine ⟨fun _ => rfl, fun a s => ⟨exec_prn_unwritten, fun v ha => ⟨_, exec_prn_val ha, rfl, ?_⟩⟩⟩
  rw [outputLines_advance, outputLines_emit_out]

/-- Settles O27: the value of a left shift, and the amounts 8 or more and 0. -/
theorem shlResult : Obligations.ShlResult := by
  refine binaryAlu_of_execBinary (f := aluShl) (fun _ _ => rfl) (fun _ _ _ => rfl) fun va vb => ?_
  exact ⟨aluShl_toNat va vb, aluShl_of_le, fun h => h ▸ aluShl_zero va⟩

/-- Settles O28: the value of a logical right shift, and the amounts 8 or more and 0. -/
theorem shrResult : Obligations.ShrResult := by
  refine binaryAlu_of_execBinary (f := aluShr) (fun _ _ => rfl) (fun _ _ _ => rfl) fun va vb => ?_
  exact ⟨aluShr_toNat va vb, aluShr_of_le, fun h => h ▸ aluShr_zero va⟩

/-- Settles O29: MOD's outcomes per state of the two cells; with a zero divisor the graceful halt, whatever the OPEN
parameter is. -/
theorem modResult : Obligations.ModResult := by
  refine ⟨fun _ _ => rfl, fun a b s => ⟨exec_mod_first, fun va => exec_mod_second, fun va ha hb => ?_,
    fun va vb ha hb hvb => ?_⟩⟩
  · rw [exec_mod_zero ha hb, State.divideByZeroHalt_eq]
  · exact ⟨aluMod va vb, aluMod_toNat va vb, aluMod_lt va hvb, exec_mod_val ha hb hvb⟩

/-- Settles O30: NOT's outcomes per state of Ra's cell, and the bits of the complement. -/
theorem notResult : Obligations.NotResult := by
  refine ⟨fun _ => rfl, fun a s => ⟨exec_not_unwritten, fun va ha => ?_⟩⟩
  refine ⟨aluNot va, aluNot_toNat va, fun k hk => ?_, exec_not_val ha⟩
  simp [aluNot_eq, hk]

/-- Settles O52: the lines of an appended event, and the digits of a byte. -/
theorem outputIsDecimalLines : Obligations.OutputIsDecimalLines :=
  ⟨outputLines_emit_out, outputLines_emit_diag, fun v => ⟨decimal_value v, decimal_isDigit v, decimal_leading_zero⟩⟩

end Sys2Proof
end

section
/-! The statements about JEQ and JNE (R102, R103). -/

namespace Sys2Proof.Machine

theorem branchIf_taken_unwritten {a : Reg} {s : State} (ha : s.reg a = .unwritten) :
    branchIf true a s = .error (.uninitialisedRegister a) := by
  simp [branchIf, State.readReg_unwritten ha]

theorem branchIf_taken_val {a : Reg} {s : State} {t : Byte} (ha : s.reg a = .val t) :
    branchIf true a s = .ok (s.jump t) := by
  simp [branchIf, State.readReg_val ha]

theorem branchIf_not_taken (a : Reg) (s : State) : branchIf false a s = .ok (s.advance 2) := rfl

theorem exec_jeq_set {a : Reg} {s : State} {e l g : Bool} (h : s.flags = .set e l g) :
    exec (.jeq a) s = complete s (branchIf e a s) := by
  simp [exec, execJeq, State.readEqual_set h]

theorem exec_jne_set {a : Reg} {s : State} {e l g : Bool} (h : s.flags = .set e l g) :
    exec (.jne a) s = complete s (branchIf (!e) a s) := by
  simp [exec, execJne, State.readEqual_set h]

theorem exec_jeq_unset {a : Reg} {s : State} (h : s.flags = .unset) :
    exec (.jeq a) s = .next (s.raise .flagsUndefined) := by
  simp [exec, execJeq, State.readEqual_unset h]

theorem exec_jne_unset {a : Reg} {s : State} (h : s.flags = .unset) :
    exec (.jne a) s = .next (s.raise .flagsUndefined) := by
  simp [exec, execJne, State.readEqual_unset h]

/-- A byte above 7 after the opcode of an instruction with one register operand is that instruction's error (R57, R71). -/
theorem fetch_one_register_invalid {s : State} {m : Mnemonic} {mk : Reg → Instr} {b : Byte} (hm : rowOf m = .r mk)
    (hop : s.memRead s.pc = .ok (opcodeMap m)) (hb : s.memRead (s.pc + 1) = .ok b) (h : 7 < b.toNat) :
    fetch s = .error (.invalidRegister b) := by
  simp [fetch_row hop, hm, readOperands, hb, regField_gt h, illegalError]

end Sys2Proof.Machine

namespace Sys2Proof

open Machine Claims

/-- An instruction that branches when Equal is `taken` has the outcomes that `BranchOnEqual` asks for. -/
theorem branchOnEqual_of_branchIf {taken : Bool} {mk : Reg → Instr} {m : Mnemonic} (hm : rowOf m = .r mk)
    (hencode : ∀ a, encode (mk a) = [opcodeMap m, regByte a])
    (hunset : ∀ a (s : State), s.flags = .unset → exec (mk a) s = .next (s.raise .flagsUndefined))
    (htaken : ∀ a (s : State) l g, s.flags = .set taken l g → exec (mk a) s = complete s (branchIf true a s))
    (hnot : ∀ a (s : State) l g, s.flags = .set (!taken) l g → exec (mk a) s = complete s (branchIf false a s)) :
    BranchOnEqual taken mk m := by
  refine ⟨hencode, fun a s => ⟨hunset a s, fun l g hf ha => ?_, fun l g t hf ha => ?_, fun l g hf => ?_⟩,
    fun s b hs hop hb h => ?_⟩
  · rw [htaken a s l g hf, branchIf_taken_unwritten ha, complete_error]
  · rw [htaken a s l g hf, branchIf_taken_val ha]
    rfl
  · rw [hnot a s l g hf, branchIf_not_taken]
    rfl
  · exact step_raise hs.1 hs.2 (fetch_one_register_invalid hm hop hb h)

/-- Settles O33: JEQ branches on the Equal flag itself. -/
theorem jeqBranches : Obligations.JeqBranches :=
  branchOnEqual_of_branchIf rfl (fun _ => rfl) (fun _ _ => exec_jeq_unset) (fun _ _ _ _ => exec_jeq_set)
    fun _ _ _ _ => exec_jeq_set

/-- Settles O34: JNE branches on the Equal flag inverted. -/
theorem jneBranches : Obligations.JneBranches :=
  branchOnEqual_of_branchIf rfl (fun _ => rfl) (fun _ _ => exec_jne_unset) (fun _ _ _ _ => exec_jne_set)
    fun _ _ _ _ => exec_jne_set

end Sys2Proof
end

section
/-! The statements about PUSH, POP, CALL and RET (R106 to R109). -/

namespace Sys2Proof.Machine

/-! ### The stack pointer's operations, without a value and by the value they give -/

theorem decSp_unwritten {s : State} (h : s.reg Config.spReg = .unwritten) :
    decSp s = .error (.uninitialisedRegister Config.spReg) := by
  simp [decSp, State.readReg_unwritten h]

theorem loadAtSp_sp_unwritten {s : State} (h : s.reg Config.spReg = .unwritten) :
    loadAtSp s = .error (.uninitialisedRegister Config.spReg) := by
  simp [loadAtSp, State.readReg_unwritten h]

theorem decSp_of_toNat {s : State} {sp sp' : Byte} (h : s.reg Config.spReg = .val sp)
    (hsp' : sp'.toNat = (sp.toNat + 255) % 256) : decSp s = .ok (s.writeReg Config.spReg sp') := by
  obtain ⟨q, hq, hdec⟩ := decSp_writes h
  rw [hdec, BitVec.eq_of_toNat_eq (hsp'.trans hq.symm)]

theorem incSp_of_toNat {s : State} {sp sp' : Byte} (h : s.reg Config.spReg = .val sp)
    (hsp' : sp'.toNat = (sp.toNat + 1) % 256) : incSp s = .ok (s.writeReg Config.spReg sp') := by
  rw [incSp_val h, BitVec.eq_of_toNat_eq ((spInc_toNat sp).trans hsp'.symm)]

/-- Of two writes to one register the later one stands. -/
theorem State.writeReg_writeReg_same (s : State) (r : Reg) (v w : Byte) :
    (s.writeReg r v).writeReg r w = s.writeReg r w := by
  simp [State.writeReg]

/-! ### The errors of the stack instructions -/

theorem exec_push_error {a : Reg} {s : State} {e : FatalError} (h : decSp s = .error e) :
    exec (.push a) s = .next (s.raise e) := by
  simp [exec, execPush, h]

theorem exec_push_unwritten {a : Reg} {s s1 : State} (h1 : decSp s = .ok s1) (ha : s1.reg a = .unwritten) :
    exec (.push a) s = .next (s.raise (.uninitialisedRegister a)) := by
  simp [exec, execPush, h1, State.readReg_unwritten ha]

theorem exec_pop_error {a : Reg} {s : State} {e : FatalError} (h : loadAtSp s = .error e) :
    exec (.pop a) s = .next (s.raise e) := by
  simp [exec, execPop, h]

theorem exec_ret_error {s : State} {e : FatalError} (h : loadAtSp s = .error e) :
    exec .ret s = .next (s.raise e) := by
  simp [exec, execRet, h]

theorem exec_call_outOfRange {a : Reg} {s : State} (h : 255 < s.pc + 2) :
    exec (.call a) s = .next (s.raise (.returnAddressOutOfRange (s.pc + 2))) := by
  simp only [exec, execCall, gt_iff_lt, h, if_true, complete_error]

theorem exec_call_error {a : Reg} {s : State} {e : FatalError} (hpc : s.pc + 2 ≤ 255) (h : decSp s = .error e) :
    exec (.call a) s = .next (s.raise e) := by
  simp [exec, execCall, Nat.not_lt.2 hpc, h]

theorem exec_call_unwritten {a : Reg} {s s1 : State} {q : Byte} (hpc : s.pc + 2 ≤ 255) (h1 : decSp s = .ok s1)
    (hq : s1.reg Config.spReg = .val q) (ha : s1.reg a = .unwritten) :
    exec (.call a) s = .next (s.raise (.uninitialisedRegister a)) := by
  have ha' : (s1.writeMem q.toNat (BitVec.ofNat 8 (s.pc + 2))).readReg a = .error (.uninitialisedRegister a) :=
    State.readReg_unwritten ha
  simp [exec, execCall, Nat.not_lt.2 hpc, h1, storeAtSp_val _ hq, ha']

end Sys2Proof.Machine

namespace Sys2Proof

open Machine

/-- Settles O35: the decrement, then Ra read after it, then the store; the error of an `Unwritten` cell on the way. -/
theorem pushStores : Obligations.PushStores := by
  refine ⟨fun _ => rfl, fun a s => ⟨fun hsp => exec_push_error (decSp_unwritten hsp), fun sp sp' hsp hsp' => ?_⟩⟩
  have hdec := decSp_of_toNat hsp hsp'
  have hsp1 := State.writeReg_reg_same s Config.spReg sp'
  refine ⟨fun hne ha => ?_, fun v hne ha => ?_, ?_⟩
  · exact exec_push_unwritten hdec (by rw [State.writeReg_reg_other s sp' hne, ha])
  · exact exec_push_val hdec hsp1 (by rw [State.writeReg_reg_other s sp' hne, ha])
  · rintro rfl
    exact exec_push_val hdec hsp1 hsp1

/-- Settles O36: the load, then Ra written, then the increment, of the popped value for R7; the errors of the load. -/
theorem popLoads : Obligations.PopLoads := by
  refine ⟨fun _ => rfl, fun a s => ⟨fun hsp => exec_pop_error (loadAtSp_sp_unwritten hsp), fun sp hsp => ?_⟩⟩
  refine ⟨fun hm => exec_pop_error (loadAtSp_unwritten hsp hm), fun v sp' hne hm hsp' => ?_, ?_⟩
  · have hsp1 : (s.writeReg a v).reg Config.spReg = .val sp := by rw [State.writeReg_reg_other s v hne.symm, hsp]
    exact exec_pop_val hsp hm (incSp_of_toNat hsp1 hsp')
  · rintro v v' rfl hm hv'
    have hinc := incSp_of_toNat (State.writeReg_reg_same s Config.spReg v) hv'
    rw [State.writeReg_writeReg_same] at hinc
    exact exec_pop_val hsp hm hinc

/-- Settles O37: the check of the return address, the decrement, the store, then Ra read after them; the errors on the
way. -/
theorem callStoresAndJumps : Obligations.CallStoresAndJumps := by
  refine ⟨fun _ => rfl, fun a s => ⟨exec_call_outOfRange, fun hpc hsp => exec_call_error hpc (decSp_unwritten hsp),
    fun sp sp' hpc hsp hsp' => ?_⟩⟩
  have hdec := decSp_of_toNat hsp hsp'
  have hsp1 := State.writeReg_reg_same s Config.spReg sp'
  refine ⟨fun hne ha => ?_, ?_⟩
  · exact exec_call_unwritten hpc hdec hsp1 (by rw [State.writeReg_reg_other s sp' hne, ha])
  · rintro t (⟨hne, ha⟩ | ⟨rfl, rfl⟩)
    · exact exec_call_val hpc hdec hsp1 (by rw [State.writeReg_reg_other s sp' hne, ha])
    · exact exec_call_val hpc hdec hsp1 hsp1

/-- Settles O38: the load, then the increment and the jump; the errors of the load. -/
theorem retReturns : Obligations.RetReturns := by
  refine ⟨rfl, fun s => ⟨fun hsp => exec_ret_error (loadAtSp_sp_unwritten hsp), fun sp hsp => ?_⟩⟩
  refine ⟨fun hm => exec_ret_error (loadAtSp_unwritten hsp hm), fun t sp' hm hsp' => ?_⟩
  exact exec_ret_val hsp hm (incSp_of_toNat hsp hsp')

end Sys2Proof
end
